-- ==== Sys2Proof/Word.lean ====
section
/-! DEFINITION. Word.lean: the widths of the machine's values (spec/00_scope.md R6, R8). Every value is
unsigned; there is no signed quantity. -/

namespace Sys2Proof

/-- A general register, a memory byte, a timer: 8 bits (R6 `REG_W`, `TIMER_W`; R61). -/
abbrev Byte := BitVec 8

/-- An instruction word, `I`, `pc`, a stack entry: 16 bits (R6 `I_W`, `PC_W`; R25, R90). -/
abbrev Word := BitVec 16

/-- The number of a general register, 0 to 15 (R6 `NREG`; R92, fields `x` and `y`). -/
abbrev RegNum := Fin 16

/-- One bit as a byte: the values a flag takes in `V[0xF]` (R22). -/
def Byte.ofBool (b : Bool) : Byte := if b then 1 else 0

end Sys2Proof
end

