-- ==== Sys2Proof/Syntax.lean ====
section
/-! DEFINITION. Syntax.lean: the 34 instructions, one constructor per row of spec/opcode_table.json
(spec/30_encoding.md R96), with the operand fields of R92. -/

namespace Sys2Proof

/-- The instruction set (R96). `x`, `y` are register numbers, `kk` an 8-bit and `nnn` a 12-bit immediate, `n` a
sprite height in rows (R92). `shr` and `shl` carry the `y` field that the machine ignores (R166, R168). -/
inductive Instr where
  /-- `00E0`, R120 -/
  | cls
  /-- `00EE`, R121 -/
  | ret
  /-- `1nnn`, R130 -/
  | jp (nnn : BitVec 12)
  /-- `2nnn`, R131 -/
  | call (nnn : BitVec 12)
  /-- `3xkk`, R140 -/
  | seImm (x : RegNum) (kk : Byte)
  /-- `4xkk`, R141 -/
  | sneImm (x : RegNum) (kk : Byte)
  /-- `5xy0`, R142 -/
  | seReg (x y : RegNum)
  /-- `6xkk`, R150 -/
  | ldImm (x : RegNum) (kk : Byte)
  /-- `7xkk`, R151 -/
  | addImm (x : RegNum) (kk : Byte)
  /-- `8xy0`, R160 -/
  | ldReg (x y : RegNum)
  /-- `8xy1`, R161 -/
  | orReg (x y : RegNum)
  /-- `8xy2`, R162 -/
  | andReg (x y : RegNum)
  /-- `8xy3`, R163 -/
  | xorReg (x y : RegNum)
  /-- `8xy4`, R164 -/
  | addReg (x y : RegNum)
  /-- `8xy5`, R165 -/
  | sub (x y : RegNum)
  /-- `8xy6`, R166; `y` is ignored -/
  | shr (x y : RegNum)
  /-- `8xy7`, R167 -/
  | subn (x y : RegNum)
  /-- `8xyE`, R168; `y` is ignored -/
  | shl (x y : RegNum)
  /-- `9xy0`, R143 -/
  | sneReg (x y : RegNum)
  /-- `Annn`, R152 -/
  | ldI (nnn : BitVec 12)
  /-- `Bnnn`, R132 -/
  | jpV0 (nnn : BitVec 12)
  /-- `Cxkk`, R180 -/
  | rnd (x : RegNum) (kk : Byte)
  /-- `Dxyn`, R185 -/
  | drw (x y : RegNum) (n : Fin 16)
  /-- `Ex9E`, R200 -/
  | skp (x : RegNum)
  /-- `ExA1`, R201 -/
  | sknp (x : RegNum)
  /-- `Fx07`, R210 -/
  | ldVxDT (x : RegNum)
  /-- `Fx0A`, R202 -/
  | ldVxK (x : RegNum)
  /-- `Fx15`, R211 -/
  | ldDTVx (x : RegNum)
  /-- `Fx18`, R212 -/
  | ldSTVx (x : RegNum)
  /-- `Fx1E`, R213 -/
  | addI (x : RegNum)
  /-- `Fx29`, R214 -/
  | ldF (x : RegNum)
  /-- `Fx33`, R220 -/
  | ldB (x : RegNum)
  /-- `Fx55`, R221 -/
  | ldMemVx (x : RegNum)
  /-- `Fx65`, R222 -/
  | ldVxMem (x : RegNum)
  deriving DecidableEq, Repr

end Sys2Proof
end

