-- ==== Sys2Proof/Decode.lean ====
section
/-! DEFINITION. Decode.lean: the decoder, total on all 65536 words (spec/30_encoding.md R93 to R98), then the
encoder written from the formats of R91, and the opcode map of R96 as a table. -/

namespace Sys2Proof

/-! ## Fields of a word (R92) -/

/-- The four bits of `w` from bit `lo` up, as a number 0 to 15. -/
def nibbleAt (w : Word) (lo : Nat) : Fin 16 := (w.extractLsb' lo 4).toFin

/-- `instr[15:12]`, the family (R91, R93). -/
def family (w : Word) : Fin 16 := nibbleAt w 12

/-- `x = instr[11:8]` (R92). -/
def fieldX (w : Word) : RegNum := nibbleAt w 8

/-- `y = instr[7:4]` (R92). -/
def fieldY (w : Word) : RegNum := nibbleAt w 4

/-- `n = instr[3:0]` (R92). -/
def fieldN (w : Word) : Fin 16 := nibbleAt w 0

/-- `kk = instr[7:0]` (R92). -/
def fieldKK (w : Word) : Byte := w.extractLsb' 0 8

/-- `nnn = instr[11:0]` (R92). -/
def fieldNNN (w : Word) : BitVec 12 := w.extractLsb' 0 12

/-! ## The decoder -/

/-- The families in which unknown words exist (R98): the four that dispatch further. -/
inductive UnknownFamily where
  /-- `0nnn` other than `00E0`, `00EE` -/
  | family0
  /-- `8xyN`, `N` in 8, 9, A, B, C, D, F -/
  | family8
  /-- `ExKK`, `KK` not 9E, A1 -/
  | familyE
  /-- `FxKK`, `KK` not one of the nine low bytes of R94 -/
  | familyF
  deriving DecidableEq, Repr

/-- What the decoder makes of a word: one of the 34 instructions with its fields, or an unknown word, by the name
of its family (R97). -/
inductive Decoded where
  | known (i : Instr)
  | unknown (f : UnknownFamily)
  deriving DecidableEq, Repr

/-- Family 0 compares the whole word (R94, decision D11). -/
def decodeFamily0 (w : Word) : Decoded :=
  if w = 0x00E0 then .known .cls
  else if w = 0x00EE then .known .ret
  else .unknown .family0

/-- Family 8 compares the low nibble (R94). -/
def decodeFamily8 (w : Word) : Decoded :=
  match (fieldN w).val with
  | 0x0 => .known (.ldReg (fieldX w) (fieldY w))
  | 0x1 => .known (.orReg (fieldX w) (fieldY w))
  | 0x2 => .known (.andReg (fieldX w) (fieldY w))
  | 0x3 => .known (.xorReg (fieldX w) (fieldY w))
  | 0x4 => .known (.addReg (fieldX w) (fieldY w))
  | 0x5 => .known (.sub (fieldX w) (fieldY w))
  | 0x6 => .known (.shr (fieldX w) (fieldY w))
  | 0x7 => .known (.subn (fieldX w) (fieldY w))
  | 0xE => .known (.shl (fieldX w) (fieldY w))
  | _ => .unknown .family8

/-- Family E compares the low byte (R94). -/
def decodeFamilyE (w : Word) : Decoded :=
  match (fieldKK w).toNat with
  | 0x9E => .known (.skp (fieldX w))
  | 0xA1 => .known (.sknp (fieldX w))
  | _ => .unknown .familyE

/-- Family F compares the low byte (R94). -/
def decodeFamilyF (w : Word) : Decoded :=
  match (fieldKK w).toNat with
  | 0x07 => .known (.ldVxDT (fieldX w))
  | 0x0A => .known (.ldVxK (fieldX w))
  | 0x15 => .known (.ldDTVx (fieldX w))
  | 0x18 => .known (.ldSTVx (fieldX w))
  | 0x1E => .known (.addI (fieldX w))
  | 0x29 => .known (.ldF (fieldX w))
  | 0x33 => .known (.ldB (fieldX w))
  | 0x55 => .known (.ldMemVx (fieldX w))
  | 0x65 => .known (.ldVxMem (fieldX w))
  | _ => .unknown .familyF

/-- The decoder: the high nibble selects the family; families 0, 8, E, F dispatch further (R93, R94). Families 5
and 9 do not look at the low nibble (R95). The last arm is family F, the family being below 16. -/
def decode (w : Word) : Decoded :=
  match (family w).val with
  | 0x0 => decodeFamily0 w
  | 0x1 => .known (.jp (fieldNNN w))
  | 0x2 => .known (.call (fieldNNN w))
  | 0x3 => .known (.seImm (fieldX w) (fieldKK w))
  | 0x4 => .known (.sneImm (fieldX w) (fieldKK w))
  | 0x5 => .known (.seReg (fieldX w) (fieldY w))
  | 0x6 => .known (.ldImm (fieldX w) (fieldKK w))
  | 0x7 => .known (.addImm (fieldX w) (fieldKK w))
  | 0x8 => decodeFamily8 w
  | 0x9 => .known (.sneReg (fieldX w) (fieldY w))
  | 0xA => .known (.ldI (fieldNNN w))
  | 0xB => .known (.jpV0 (fieldNNN w))
  | 0xC => .known (.rnd (fieldX w) (fieldKK w))
  | 0xD => .known (.drw (fieldX w) (fieldY w) (fieldN w))
  | 0xE => decodeFamilyE w
  | _ => decodeFamilyF w

/-- The word made of two bytes, the one at the lower address the high byte (R64, R90: big-endian). -/
def wordOfBytes (first second : Byte) : Word := first ++ second

/-- The two bytes of a word in the order memory holds them: the high byte at the lower address (R64). -/
def bytesOfWord (w : Word) : Byte × Byte := (w.extractLsb' 8 8, w.extractLsb' 0 8)

/-- The decoder on the two bytes of an instruction, in the order memory holds them. -/
def decodeBytes (first second : Byte) : Decoded := decode (wordOfBytes first second)

/-- The word that `nbits` bits of `w` stand for, numbered as spec/opcode_table.json numbers them: every
instruction is one 16-bit word (R90), so bit 0 is the word's least significant bit; bits from `nbits` up are 0. -/
def tableWord (nbits w : Nat) : Word := BitVec.ofNat 16 (w % 2 ^ nbits)

/-- What the decoder reads from the instruction whose bits are `w`: its word is laid out as memory holds it and
given to the decoder as bytes; `none` for an unknown word. -/
def decodeTableWord (nbits w : Nat) : Option Instr :=
  match decodeBytes (bytesOfWord (tableWord nbits w)).1 (bytesOfWord (tableWord nbits w)).2 with
  | .known i => some i
  | .unknown _ => none

/-! ## The encoder, from the formats of R91 -/

/-- A number 0 to 15 as the four bits of a field. -/
def nibbleBits (x : Fin 16) : BitVec 4 := BitVec.ofNat 4 x.val

/-- Format NNN. -/
def encodeNNN (fam : BitVec 4) (nnn : BitVec 12) : Word := fam ++ nnn

/-- Formats XKK and XSS: `x` and a byte, the immediate or the sub-opcode. -/
def encodeXKK (fam : BitVec 4) (x : RegNum) (kk : Byte) : Word := fam ++ nibbleBits x ++ kk

/-- Formats XY and XYN: `x`, `y` and a nibble, the sprite height or the sub-opcode. -/
def encodeXYN (fam : BitVec 4) (x y : RegNum) (n : BitVec 4) : Word := fam ++ nibbleBits x ++ nibbleBits y ++ n

/-- The word of an instruction (R91, R96). The low nibble of families 5 and 9 is the canonical 0 (R95). -/
def encode : Instr → Word
  | .cls => 0x00E0
  | .ret => 0x00EE
  | .jp nnn => encodeNNN 0x1 nnn
  | .call nnn => encodeNNN 0x2 nnn
  | .seImm x kk => encodeXKK 0x3 x kk
  | .sneImm x kk => encodeXKK 0x4 x kk
  | .seReg x y => encodeXYN 0x5 x y 0x0
  | .ldImm x kk => encodeXKK 0x6 x kk
  | .addImm x kk => encodeXKK 0x7 x kk
  | .ldReg x y => encodeXYN 0x8 x y 0x0
  | .orReg x y => encodeXYN 0x8 x y 0x1
  | .andReg x y => encodeXYN 0x8 x y 0x2
  | .xorReg x y => encodeXYN 0x8 x y 0x3
  | .addReg x y => encodeXYN 0x8 x y 0x4
  | .sub x y => encodeXYN 0x8 x y 0x5
  | .shr x y => encodeXYN 0x8 x y 0x6
  | .subn x y => encodeXYN 0x8 x y 0x7
  | .shl x y => encodeXYN 0x8 x y 0xE
  | .sneReg x y => encodeXYN 0x9 x y 0x0
  | .ldI nnn => encodeNNN 0xA nnn
  | .jpV0 nnn => encodeNNN 0xB nnn
  | .rnd x kk => encodeXKK 0xC x kk
  | .drw x y n => encodeXYN 0xD x y (nibbleBits n)
  | .skp x => encodeXKK 0xE x 0x9E
  | .sknp x => encodeXKK 0xE x 0xA1
  | .ldVxDT x => encodeXKK 0xF x 0x07
  | .ldVxK x => encodeXKK 0xF x 0x0A
  | .ldDTVx x => encodeXKK 0xF x 0x15
  | .ldSTVx x => encodeXKK 0xF x 0x18
  | .addI x => encodeXKK 0xF x 0x1E
  | .ldF x => encodeXKK 0xF x 0x29
  | .ldB x => encodeXKK 0xF x 0x33
  | .ldMemVx x => encodeXKK 0xF x 0x55
  | .ldVxMem x => encodeXKK 0xF x 0x65

/-- The word with the bits the decoder ignores at their canonical value 0: the low nibble of families 5 and 9
(R95). -/
def canonicalWord (w : Word) : Word :=
  if family w = 0x5 ∨ family w = 0x9 then w &&& 0xFFF0 else w

/-! ## The opcode map as a table (R96) -/

/-- One row of R96: a word `w` selects it when `w & mask = pattern` (`pattern` is the table's "match"). -/
structure OpcodeRow where
  mask : Word
  pattern : Word
  deriving DecidableEq, Repr

/-- A word selects a row (R96). -/
def OpcodeRow.selects (r : OpcodeRow) (w : Word) : Bool := w &&& r.mask == r.pattern

/-- The row of each instruction, mask and match as R96 prints them. -/
def rowOf : Instr → OpcodeRow
  | .cls => ⟨0xFFFF, 0x00E0⟩
  | .ret => ⟨0xFFFF, 0x00EE⟩
  | .jp _ => ⟨0xF000, 0x1000⟩
  | .call _ => ⟨0xF000, 0x2000⟩
  | .seImm _ _ => ⟨0xF000, 0x3000⟩
  | .sneImm _ _ => ⟨0xF000, 0x4000⟩
  | .seReg _ _ => ⟨0xF000, 0x5000⟩
  | .ldImm _ _ => ⟨0xF000, 0x6000⟩
  | .addImm _ _ => ⟨0xF000, 0x7000⟩
  | .ldReg _ _ => ⟨0xF00F, 0x8000⟩
  | .orReg _ _ => ⟨0xF00F, 0x8001⟩
  | .andReg _ _ => ⟨0xF00F, 0x8002⟩
  | .xorReg _ _ => ⟨0xF00F, 0x8003⟩
  | .addReg _ _ => ⟨0xF00F, 0x8004⟩
  | .sub _ _ => ⟨0xF00F, 0x8005⟩
  | .shr _ _ => ⟨0xF00F, 0x8006⟩
  | .subn _ _ => ⟨0xF00F, 0x8007⟩
  | .shl _ _ => ⟨0xF00F, 0x800E⟩
  | .sneReg _ _ => ⟨0xF000, 0x9000⟩
  | .ldI _ => ⟨0xF000, 0xA000⟩
  | .jpV0 _ => ⟨0xF000, 0xB000⟩
  | .rnd _ _ => ⟨0xF000, 0xC000⟩
  | .drw _ _ _ => ⟨0xF000, 0xD000⟩
  | .skp _ => ⟨0xF0FF, 0xE09E⟩
  | .sknp _ => ⟨0xF0FF, 0xE0A1⟩
  | .ldVxDT _ => ⟨0xF0FF, 0xF007⟩
  | .ldVxK _ => ⟨0xF0FF, 0xF00A⟩
  | .ldDTVx _ => ⟨0xF0FF, 0xF015⟩
  | .ldSTVx _ => ⟨0xF0FF, 0xF018⟩
  | .addI _ => ⟨0xF0FF, 0xF01E⟩
  | .ldF _ => ⟨0xF0FF, 0xF029⟩
  | .ldB _ => ⟨0xF0FF, 0xF033⟩
  | .ldMemVx _ => ⟨0xF0FF, 0xF055⟩
  | .ldVxMem _ => ⟨0xF0FF, 0xF065⟩

/-- One instruction of each row, operands 0, in the order of R96. -/
def rowExamples : List Instr :=
  [.cls, .ret, .jp 0, .call 0, .seImm 0 0, .sneImm 0 0, .seReg 0 0, .ldImm 0 0, .addImm 0 0] ++
  [.ldReg 0 0, .orReg 0 0, .andReg 0 0, .xorReg 0 0, .addReg 0 0, .sub 0 0, .shr 0 0, .subn 0 0, .shl 0 0] ++
  [.sneReg 0 0, .ldI 0, .jpV0 0, .rnd 0 0, .drw 0 0 0, .skp 0, .sknp 0] ++
  [.ldVxDT 0, .ldVxK 0, .ldDTVx 0, .ldSTVx 0, .addI 0, .ldF 0, .ldB 0, .ldMemVx 0, .ldVxMem 0]

/-- The complete opcode map: the 34 rows of R96 in its order. -/
def opcodeTable : List OpcodeRow := rowExamples.map rowOf

end Sys2Proof
end

