-- ==== Sys2Proof/Config.lean ====
section
/-! DEFINITION. Config.lean: what is fixed for the machine (spec/00_scope.md R6, R7) and the free values,
opaque constants without a body (notes/assumptions/1.md). -/

namespace Sys2Proof.Config

/-- R6 `MEM_SIZE`: bytes of main memory, addresses 0x000 to 0xFFF. -/
abbrev memSize : Nat := 4096

/-- R6 `FONT_BASE` and `FONT_SIZE`: the font table is the 80 bytes from 0x000. -/
abbrev fontSize : Nat := 80

/-- R6 `GLYPH_BYTES`: bytes per glyph, the stride of `Fx29`. -/
abbrev glyphBytes : Nat := 5

/-- R6 `LOAD_ADDR`: first byte of the program region, and `pc` at reset. -/
abbrev loadAddr : Nat := 0x200

/-- R6 `ROM_MAX`: the largest program image in bytes (spec/90_conflicts.md C1: 3584, not 3583). -/
abbrev romMax : Nat := 3584

/-- R6 `STACK_DEPTH`: entries of the call stack. -/
abbrev stackDepth : Nat := 16

/-- R6 `FB_W`: columns of the framebuffer. -/
abbrev fbWidth : Nat := 64

/-- R6 `FB_H`: rows of the framebuffer. -/
abbrev fbHeight : Nat := 32

/-- R6: pixels of the framebuffer, indices 0 to 2047. -/
abbrev fbSize : Nat := 2048

/-- R6 `NKEYS`: key inputs. -/
abbrev nKeys : Nat := 16

/-- R6 `INSTR_BYTES`: bytes per instruction. -/
abbrev instrBytes : Nat := 2

/-- R7 `RND_MIN` at the source's literal 1. The machine does not rest on it: it runs with every random byte, 0
included, which is the cautious reading R180 allows (SAFE, DESIGN CHOICE, notes/assumptions/3.md). It bounds only
`CycleInput.legal`, the host's side of the contract. -/
abbrev rndMin : Nat := 1

/-- R7 `SPRITE_MSB_LEFT`, at its default: bit 7 of a sprite byte is the leftmost column (R186, decision D28;
PRESUMED by the spec itself, notes/assumptions/5.md). -/
def spriteMsbLeft : Bool := true

/-- FREE VALUE: what `keys_in` carries in cycle `n` when the schedule does not say (R36, R203; U15: every one of
the 65536 patterns is legal). No body: nothing can be proved of it. -/
opaque freeKeys : Nat → BitVec 16

/-- FREE VALUE: what `rnd_in` carries in cycle `n` when the schedule does not say (R36, R180; U9). No body. -/
opaque freeRnd : Nat → Byte

end Sys2Proof.Config
end

