-- ==== Sys2Proof/Machine/State.lean ====
section
/-! DEFINITION. Machine/State.lean: the state as plain data (spec/10_state.md R21 to R37, R41), the reasons a step
can stop, and the state after reset. -/

namespace Sys2Proof.Machine

/-- The named conditions of R230, each of which halts the core. Raising one is a NEXT state, the halted core
(R240, R242): notes/assumptions/6.md. -/
inductive FaultKind where
  /-- `CAUSE` 1: a data access to main memory above 0xFFF -/
  | memoryFault
  /-- `CAUSE` 2: instruction fetch with `pc > 0xFFE` -/
  | fetchFault
  /-- `CAUSE` 3: a framebuffer access with index above 2047 -/
  | framebufferFault
  /-- `CAUSE` 4: a key index above 15 -/
  | keyIndexFault
  /-- `CAUSE` 5: push with `sp = 16` -/
  | stackOverflow
  /-- `CAUSE` 6: pop with `sp = 0` -/
  | stackUnderflow
  deriving DecidableEq, Repr

/-- `raise F(info)` of R10: which fault, and the value `FINFO` records (R230). -/
structure FaultRaise where
  kind : FaultKind
  info : Nat
  deriving DecidableEq, Repr

/-- What the host presents to one cycle (R36): the 16 key levels, bit `k` being key `k`, and the random byte. -/
structure CycleInput where
  keys : BitVec 16
  rnd : Byte
  deriving DecidableEq, Repr

/-- The outputs of the cycle that just completed (R37); the fault outputs are the registers `FAULT`, `CAUSE`,
`FINFO` themselves. -/
structure Outputs where
  /-- `draw_req`: the cycle executed `00E0` or `Dxyn` -/
  drawReq : Bool
  /-- `beep`: the cycle's tick took `ST` from 1 to 0 -/
  beep : Bool
  /-- `unk_valid`: the cycle executed an unknown instruction -/
  unkValid : Bool
  /-- `unk_instr`: the unknown word when `unkValid`, else 0 -/
  unkInstr : Word
  /-- `blocked`: the cycle was a no-progress `Fx0A` cycle -/
  blocked : Bool
  deriving DecidableEq, Repr

/-- All one-cycle outputs 0 (R38 steps 1 and 7; R41). -/
def Outputs.idle : Outputs := ⟨false, false, false, 0, false⟩

/-- Main memory (R60, R61): the bytes that differ from what `background` (Machine/Memory.lean) says an unlisted
address reads as, by rising address. -/
abbrev Memory := List Host.Cell

/-- The framebuffer (R31): 32 rows of 64 pixels, bit `c` of row `r` being the pixel in column `c` of row `r`, that
is `fb[r*64 + c]`. -/
abbrev Framebuffer := Vector (BitVec 64) 32

/-- Everything the spec gives the machine, under its names (R21 to R34), then the outputs of the last cycle (R37),
then the model's own two fields about the host's inputs (notes/assumptions/2.md). -/
structure State where
  /-- `V[0x0]` to `V[0xF]`; `V[0xF]` is also the flag (R21, R22) -/
  V : Vector Byte 16
  /-- the index register, never masked to 12 bits (R24) -/
  I : Word
  /-- the program counter, never masked (R26, R28) -/
  pc : Word
  /-- the call stack's entries (R25) -/
  stack : Vector Word 16
  /-- entries in use, 0 to 16 (R25, R34) -/
  sp : Fin 17
  /-- the delay timer (R29) -/
  DT : Byte
  /-- the sound timer (R30) -/
  ST : Byte
  /-- main memory (R60 to R68) -/
  memory : Memory
  /-- the framebuffer (R31) -/
  fb : Framebuffer
  /-- set by `00E0` and `Dxyn`, cleared at the end of every completed cycle (R32) -/
  drawFlag : Bool
  /-- halted by a fatal fault (R33) -/
  FAULT : Bool
  /-- the cause code, 0 while running (R33, R230) -/
  CAUSE : BitVec 3
  /-- the value the fault recorded, 0 while running (R33, R230) -/
  FINFO : BitVec 17
  /-- outputs of the cycle just completed (R37) -/
  out : Outputs
  /-- the model's own: what the host presents to the coming cycles, the next one first -/
  inputs : List CycleInput
  /-- the model's own: cycles issued so far; names the free value used when `inputs` is empty -/
  cycleNo : Nat
  deriving DecidableEq, Repr

/-- Why a step stops with a fault: never. Every fault the spec names has an entry (R240) and a halted state (R242)
that is a state like any other, so the machine always has a next state and this type has no constructor. SAFE:
nothing is cut short (notes/assumptions/6.md). -/
inductive Fault where
  deriving DecidableEq, Repr

/-- Why a step is refused. -/
inductive Refusal where
  /-- Raised only by an arm of `exec` for an instruction that has no meaning yet; SAFE. No arm raises it. -/
  | notModelled (mnemonic : String)
  deriving DecidableEq, Repr

/-- The machine right after reset, with the empty ROM (R41, R270, R271): font table at 0x000 and 0x00 elsewhere is
what unlisted memory reads as, so nothing is listed. `Machine/Loader.lean` places a ROM. The last two fields are
the model's own (DESIGN CHOICE, notes/assumptions/2.md). -/
def State.reset : State where
  V := Vector.replicate 16 0
  I := 0
  pc := 0x200
  stack := Vector.replicate 16 0
  sp := 0
  DT := 0
  ST := 0
  memory := []
  fb := Vector.replicate 32 0
  drawFlag := false
  FAULT := false
  CAUSE := 0
  FINFO := 0
  out := Outputs.idle
  inputs := []
  cycleNo := 0

end Sys2Proof.Machine
end

