-- ==== Sys2Proof/Machine/Memory.lean ====
section
/-! DEFINITION. Machine/Memory.lean: what unlisted memory reads as, and reading and writing one byte in the
canonical form (spec/20_memory.md R60 to R68). Range checks are the machine's (Machine/Ops.lean). -/

namespace Sys2Proof.Machine

/-! ## The font table (R67) -/

/-- Glyphs 0 to 7 of the default `FONT_TABLE` (R67). -/
def glyphs0to7 : List Byte :=
  [0xF0, 0x90, 0x90, 0x90, 0xF0] ++ [0x20, 0x60, 0x20, 0x20, 0x70] ++
  [0xF0, 0x10, 0xF0, 0x80, 0xF0] ++ [0xF0, 0x10, 0xF0, 0x10, 0xF0] ++
  [0x90, 0x90, 0xF0, 0x10, 0x10] ++ [0xF0, 0x80, 0xF0, 0x10, 0xF0] ++
  [0xF0, 0x80, 0xF0, 0x90, 0xF0] ++ [0xF0, 0x10, 0x20, 0x40, 0x40]

/-- Glyphs 8 to F of the default `FONT_TABLE` (R67). -/
def glyphs8toF : List Byte :=
  [0xF0, 0x90, 0xF0, 0x90, 0xF0] ++ [0xF0, 0x90, 0xF0, 0x10, 0xF0] ++
  [0xF0, 0x90, 0xF0, 0x90, 0x90] ++ [0xE0, 0x90, 0xE0, 0x90, 0xE0] ++
  [0xF0, 0x80, 0x80, 0x80, 0xF0] ++ [0xE0, 0x90, 0x90, 0x90, 0xE0] ++
  [0xF0, 0x80, 0xF0, 0x80, 0xF0] ++ [0xF0, 0x80, 0xF0, 0x80, 0x80]

/-- The default `FONT_TABLE`: 16 glyphs of 5 bytes from address 0x000 (R66, R67). The bytes are PRESUMED by the
spec itself (decision D18, notes/assumptions/4.md); another table is an argument of `launchWith` and of
`State.assertReset`. -/
def fontTable : List Byte := glyphs0to7 ++ glyphs8toF

/-- What an address that memory does not list reads as: the reset contents (R41), the font table at 0x000 to 0x04F
and `MEM_FILL` = 0x00 above it (R7, decision D17). -/
def background (a : Nat) : Byte := (fontTable[a]?).getD 0x00

/-! ## One byte -/

/-- The byte listed at `a`, if one is. -/
def Memory.lookup : Memory → Nat → Option Byte
  | [], _ => none
  | (b, v) :: m, a => if a = b then some v else Memory.lookup m a

/-- The byte at `a` (R61). -/
def Memory.read (m : Memory) (a : Nat) : Byte := (m.lookup a).getD (background a)

/-- Lists `v` at `a`, keeping the addresses rising. -/
def Memory.insert : Memory → Nat → Byte → Memory
  | [], a, v => [(a, v)]
  | (b, u) :: m, a, v =>
    if a < b then (a, v) :: (b, u) :: m
    else if a = b then (a, v) :: m
    else (b, u) :: Memory.insert m a v

/-- Takes the entry at `a` out. -/
def Memory.erase : Memory → Nat → Memory
  | [], _ => []
  | (b, u) :: m, a => if a = b then m else (b, u) :: Memory.erase m a

/-- Stores `v` at `a`; storing what an unlisted address reads as removes the entry, so equal memories are equal
lists. -/
def Memory.write (m : Memory) (a : Nat) (v : Byte) : Memory :=
  if v = background a then m.erase a else m.insert a v

/-- Stores the bytes at `a`, `a + 1`, and so on. -/
def Memory.writeBytes : Memory → Nat → List Byte → Memory
  | m, _, [] => m
  | m, a, v :: vs => Memory.writeBytes (m.write a v) (a + 1) vs

/-- The canonical form: addresses strictly rising, none outside main memory, and no entry equal to what an
unlisted address reads as. -/
abbrev Memory.wf (m : Memory) : Prop :=
  m.Pairwise (fun c d => c.1 < d.1) ∧ ∀ c ∈ m, c.2 ≠ background c.1 ∧ c.1 < Config.memSize

/-- The canonical memory whose byte at every address of main memory is `image` there. -/
def Memory.ofImage (image : Nat → Byte) : Memory :=
  (List.range Config.memSize).filterMap fun a =>
    if image a = background a then none else some (a, image a)

end Sys2Proof.Machine
end

