-- ==== Sys2Proof/Machine/Ops.lean ====
section
/-! DEFINITION. Machine/Ops.lean: the named operations over registers, memory, stack, framebuffer, inputs, and
fault entry (spec/00_scope.md R9, R10; spec/60_exceptions.md R230, R231, R240). An operation that can raise
answers `Except FaultRaise`; `commit` turns it into the outcome, all or nothing. -/

namespace Sys2Proof.Machine

/-! ## Faults -/

/-- The cause code of a fault (R230). -/
def FaultKind.code : FaultKind → BitVec 3
  | .memoryFault => 1
  | .fetchFault => 2
  | .framebufferFault => 3
  | .keyIndexFault => 4
  | .stackOverflow => 5
  | .stackUnderflow => 6

namespace State

/-- Fault entry (R240): `FAULT`, `CAUSE`, `FINFO` are written and nothing else; `pc` keeps the address of the
faulting instruction. -/
def faultEntry (s : State) (e : FaultRaise) : State :=
  { s with FAULT := true, CAUSE := e.kind.code, FINFO := BitVec.ofNat 17 e.info }

/-- The outcome of an instruction computed from the state `s` before it: its effect, or fault entry on `s` with
every write discarded (R231: "commits the effect only if there is no fault"). -/
def commit (s : State) : Except FaultRaise State → Host.Outcome State Fault Refusal
  | .ok t => .next t
  | .error e => .next (s.faultEntry e)

/-! ## Registers -/

/-- `V[x]` (R9, R21). -/
def reg (s : State) (x : RegNum) : Byte := s.V[x.val]

/-- `V[x] <- v` (R9, R21): no register is hard-wired. -/
def setReg (s : State) (x : RegNum) (v : Byte) : State := { s with V := s.V.set x.val v }

/-- `pc <- pc + 2`, the sequential successor (R26, R27). The sum never wraps in a state a run can reach (R28). -/
def advance (s : State) : State := { s with pc := s.pc + 2 }

/-- `pc <- pc + 4` when the condition holds, else `pc <- pc + 2` (R27, the skips). -/
def skipIf (s : State) (c : Bool) : State := if c then { s with pc := s.pc + 4 } else s.advance

/-- `pc <- target` (R9). -/
def jump (s : State) (target : Word) : State := { s with pc := target }

/-! ## Main memory -/

/-- The byte of main memory at `a`. -/
def readByte (s : State) (a : Nat) : Byte := s.memory.read a

/-- `MemRead(a, 1)` (R10, R62). -/
def memRead (s : State) (a : Nat) : Except FaultRaise Byte :=
  if a > 0xFFF then .error ⟨.memoryFault, a⟩ else .ok (s.readByte a)

/-- `MemWrite(a, 1, v)` (R10, R62). The font region is RAM like any other (R68). -/
def memWrite (s : State) (a : Nat) (v : Byte) : Except FaultRaise State :=
  if a > 0xFFF then .error ⟨.memoryFault, a⟩ else .ok { s with memory := s.memory.write a v }

/-! ## Call stack (R25) -/

/-- Push: the entry is written, then `sp` is incremented; a push at `sp = 16` raises `StackOverflow(pc)`. -/
def push (s : State) (v : Word) : Except FaultRaise State :=
  if h : s.sp.val < 16 then
    .ok { s with stack := s.stack.set s.sp.val v, sp := ⟨s.sp.val + 1, by omega⟩ }
  else .error ⟨.stackOverflow, s.pc.toNat⟩

/-- Pop: `sp` is decremented, then the entry is read and left as it is; a pop at `sp = 0` raises
`StackUnderflow(pc)`. -/
def pop (s : State) : Except FaultRaise (Word × State) :=
  if h : s.sp.val = 0 then .error ⟨.stackUnderflow, s.pc.toNat⟩
  else .ok (s.stack[s.sp.val - 1], { s with sp := ⟨s.sp.val - 1, by omega⟩ })

/-! ## Inputs (R36) -/

/-- What the host presents to this cycle: the head of the schedule; where the schedule does not say, a free value
(notes/assumptions/1.md). Stable for the whole cycle (R36). -/
def input (s : State) : CycleInput :=
  match s.inputs with
  | c :: _ => c
  | [] => ⟨Config.freeKeys s.cycleNo, Config.freeRnd s.cycleNo⟩

/-- The same core, with the schedule `l` of what the host presents to the coming cycles. -/
def withInputs (s : State) (l : List CycleInput) : State := { s with inputs := l }

/-- `keys[k]` (R10): 1 = pressed. -/
def keyDown (s : State) (k : Nat) : Bool := s.input.keys.getLsbD k

/-- The lowest pressed key, scanning 0x0 to 0xF upward (R202, decision D13). -/
def firstKey (s : State) : Option Nat := (List.range Config.nKeys).find? s.keyDown

end State

/-! ## Framebuffer (R31) -/

/-- Pixel `p` of a framebuffer: row `p / 64`, column `p % 64`; false outside 0 to 2047. -/
def pixelOf (fb : Framebuffer) (p : Nat) : Bool := ((fb[p / 64]?).getD 0).getLsbD (p % 64)

/-- Pixel `p` set to `b`. -/
def setPixel (fb : Framebuffer) (p : Nat) (b : Bool) : Framebuffer :=
  if pixelOf fb p = b then fb
  else fb.setIfInBounds (p / 64) (((fb[p / 64]?).getD 0) ^^^ BitVec.twoPow 64 (p % 64))

/-- `FbRead(p)` (R10, R188). -/
def fbRead (fb : Framebuffer) (p : Nat) : Except FaultRaise Bool :=
  if p > 2047 then .error ⟨.framebufferFault, p⟩ else .ok (pixelOf fb p)

/-- `FbWrite(p, b)` (R10, R188). -/
def fbWrite (fb : Framebuffer) (p : Nat) (b : Bool) : Except FaultRaise Framebuffer :=
  if p > 2047 then .error ⟨.framebufferFault, p⟩ else .ok (setPixel fb p b)

/-- The framebuffer with all 2048 pixels 0 (R120). -/
def blankFramebuffer : Framebuffer := Vector.replicate 32 0

namespace State

/-- Pixel `p` of the machine's framebuffer. -/
def pixel (s : State) (p : Nat) : Bool := pixelOf s.fb p

/-- The host's framebuffer read port: `fb_rdata = fb[fb_raddr]` (R36, R37). -/
def fbRData (s : State) (raddr : BitVec 11) : Bool := s.pixel raddr.toNat

end State

end Sys2Proof.Machine
end

