-- ==== Sys2Proof/Machine/Cycle.lean ====
section
/-! DEFINITION. Machine/Cycle.lean: what surrounds an instruction in a cycle: fetch, the unknown-instruction rule,
the timer tick, the outputs (spec/10_state.md R38, R39; spec/20_memory.md R63; spec/30_encoding.md R99;
spec/60_exceptions.md R245). -/

namespace Sys2Proof.Machine.State

/-- Instruction fetch (R63, R64): the big-endian word at `pc`; `pc > 0xFFE` raises `FetchFault(pc)` before either
byte is read. Fetch reads the memory that stores write (R74). -/
def fetch (s : State) : Except FaultRaise Word :=
  if s.pc.toNat > 0xFFE then .error ⟨.fetchFault, s.pc.toNat⟩
  else .ok (wordOfBytes (s.readByte s.pc.toNat) (s.readByte (s.pc.toNat + 1)))

/-- The unknown-instruction rule (R99): reported, `pc + 2`, nothing else. -/
def unknownInstruction (s : State) (w : Word) : State :=
  ({ s with out := { s.out with unkValid := true, unkInstr := w } }).advance

/-- A cycle starts with all one-cycle outputs 0 (R37, R38). -/
def beginCycle (s : State) : State := { s with out := Outputs.idle }

/-- A timer's value after a tick: one less, 0 being the floor (R245). -/
def tickDown (v : Byte) : Byte := if v.toNat > 0 then v - 1 else v

/-- The timer tick (R245): both timers count down; `beep` when `ST` was exactly 1. -/
def timerTick (s : State) : State :=
  { s with DT := tickDown s.DT, ST := tickDown s.ST, out := { s.out with beep := s.ST == 1 } }

/-- `draw_req <- drawFlag; drawFlag <- 0` (R32, R38 step 6). -/
def publishDraw (s : State) : State :=
  { s with out := { s.out with drawReq := s.drawFlag }, drawFlag := false }

/-- The cycle's input is used up (the model's own fields only). -/
def consumeInput (s : State) : State := { s with inputs := s.inputs.tail, cycleNo := s.cycleNo + 1 }

/-- The end of a cycle (R38 steps 5 to 7): a completed cycle ticks the timers and publishes `drawFlag`; a blocked
cycle and a cycle that raised a fault do neither (R39). -/
def endCycle (s : State) : State :=
  (if s.FAULT || s.out.blocked then s else s.timerTick.publishDraw).consumeInput

/-- A cycle while halted (R38 step 1, R242): empty, all one-cycle outputs 0. -/
def haltedCycle (s : State) : State := s.beginCycle.consumeInput

/-- A cycle whose fetch raised a fault (R38 step 7, R235). -/
def fetchFaultCycle (s : State) (e : FaultRaise) : State := (s.beginCycle.faultEntry e).endCycle

/-- `s` with the word `w` stored at `pc`, its high byte at the lower address (R64), and running: where the core is
halted, or `pc` is beyond the last word of memory, the fault registers are cleared or `pc` is set to the entry
point, because a fetch needs that (R38 step 1, R63). -/
def placeWord (s : State) (w : Word) : State :=
  let r : State := if s.FAULT then { s with FAULT := false, CAUSE := 0, FINFO := 0 } else s
  let q : State := if r.pc.toNat > 0xFFE then { r with pc := BitVec.ofNat 16 Config.loadAddr } else r
  { q with memory := q.memory.writeBytes q.pc.toNat [(bytesOfWord w).1, (bytesOfWord w).2] }

end Sys2Proof.Machine.State
end

