-- ==== Sys2Proof/Machine/Flags.lean ====
section
/-! DEFINITION. Machine/Flags.lean: every flag computation of the machine (spec/10_state.md R22, R23) and the one
order of the result write and the flag write. -/

namespace Sys2Proof.Machine

/-- The number of the flag register, `V[0xF]` (R22). -/
abbrev flagReg : RegNum := 0xF

/-- Carry out of bit 7 of `a + b`, from the untruncated sum (R164). -/
def carryOf (a b : Byte) : Bool := decide (a.toNat + b.toNat > 255)

/-- No borrow in `a - b`: `a >= b`, equality included (R165, R167). -/
def noBorrow (a b : Byte) : Bool := decide (a.toNat ≥ b.toNat)

/-- The bit a right shift by one moves out: bit 0 (R166). -/
def shiftedOutRight (a : Byte) : Bool := a.getLsbD 0

/-- The bit a left shift by one moves out: bit 7 (R168). -/
def shiftedOutLeft (a : Byte) : Bool := a.getLsbD 7

namespace State

/-- `V[0xF] <- 1` or `0`. -/
def setFlag (s : State) (f : Bool) : State := s.setReg flagReg (Byte.ofBool f)

/-- `V[x] <- r`, then `V[0xF] <- f`, the flag last (R23, decision D12). -/
def setResultAndFlag (s : State) (x : RegNum) (r : Byte) (f : Bool) : State := (s.setReg x r).setFlag f

end State

end Sys2Proof.Machine
end

