-- ==== Sys2Proof/Machine/ClsRet.lean ====
section
/-! DEFINITION. Machine/ClsRet.lean: family 0, clear screen and return (spec/40_cls_ret.md). -/

namespace Sys2Proof.Machine

/-- `00E0` (R120). -/
def execCls (s : State) : Host.Outcome State Fault Refusal :=
  .next ({ s with fb := blankFramebuffer, drawFlag := true }).advance

/-- `00EE` (R121): the popped entry is the address of the matching `2nnn`, so 2 is added. -/
def execRet (s : State) : Host.Outcome State Fault Refusal :=
  s.commit do
    let (a, t) ← s.pop
    .ok (t.jump (a + 2))

end Sys2Proof.Machine
end

