-- ==== Sys2Proof/Machine/Operands.lean ====
section
/-! DEFINITION. Machine/Operands.lean: the operand forms: immediates, the one addressing mode, key indices, sprite
bits and pixel indices, BCD digits (spec/30_encoding.md R92; spec/46_draw.md R186, R187; spec/49_memory_transfer.md). -/

namespace Sys2Proof.Machine

/-- `nnn` zero-extended to 16 bits, for `pc` or `I` (R92). -/
def zext16 (nnn : BitVec 12) : Word := nnn.setWidth 16

/-- `nnn + V[0]`, 0 to 0x10FE, not masked (R132). -/
def indexedTarget (nnn : BitVec 12) (v0 : Byte) : Word := BitVec.ofNat 16 (nnn.toNat + v0.toNat)

/-- The effective address `I + i`, an unbounded integer (R61, R62). -/
def State.ea (s : State) (i : Nat) : Nat := s.I.toNat + i

/-- The address of the glyph of `v`: `v * 5`, the whole byte, exact (R214). -/
def glyphAddress (v : Byte) : Word := BitVec.ofNat 16 (v.toNat * Config.glyphBytes)

/-- The key a register names: its whole content, not masked; above 15 it raises `KeyIndexFault` (R200, R201). -/
def keyIndex (v : Byte) : Except FaultRaise Nat :=
  if v.toNat > 15 then .error ⟨.keyIndexFault, v.toNat⟩ else .ok v.toNat

/-- The registers `V[0]` to `V[x]`, both included, in ascending order (R221, R222). -/
def regsUpTo (x : RegNum) : List RegNum := (List.finRange 16).take (x.val + 1)

/-- The bit of a sprite byte in column `c`, 0 to 7: bit `7 - c` (R186), or bit `c` were the convention the other
one (R7 `SPRITE_MSB_LEFT`). -/
def spriteBit (b : Byte) (c : Nat) : Bool := if Config.spriteMsbLeft then b.getLsbD (7 - c) else b.getLsbD c

/-- The linear pixel index of column `c`, row `r` of a sprite at `(vx, vy)`, an unbounded integer (R187). -/
def pixelIndex (vx vy : Byte) (r c : Nat) : Nat := (vx.toNat + c) + (vy.toNat + r) * 64

/-- The columns of a sprite row, left to right (R71, R185). -/
def spriteColumns : List Nat := [0, 1, 2, 3, 4, 5, 6, 7]

/-- Hundreds digit (R220): `v // 100`. -/
def bcdHundreds (v : Byte) : Byte := BitVec.ofNat 8 (v.toNat / 100)

/-- Tens digit (R220): `(v // 10) % 10`. -/
def bcdTens (v : Byte) : Byte := BitVec.ofNat 8 (v.toNat / 10 % 10)

/-- Ones digit (R220): `v % 10`. -/
def bcdOnes (v : Byte) : Byte := BitVec.ofNat 8 (v.toNat % 10)

end Sys2Proof.Machine
end

