-- ==== Sys2Proof/Machine/Draw.lean ====
section
/-! DEFINITION. Machine/Draw.lean: family D, the sprite XOR engine (spec/46_draw.md). -/

namespace Sys2Proof.Machine

/-- What a draw has made so far: the framebuffer, and whether a pixel went from 1 to 0 (R189). -/
structure Canvas where
  fb : Framebuffer
  hit : Bool
  deriving DecidableEq, Repr

/-- One sprite column (R185): a set bit XORs its pixel; a clear bit makes no access (R188). -/
def drawColumn (vx vy : Byte) (r : Nat) (b : Byte) (d : Canvas) (c : Nat) : Except FaultRaise Canvas :=
  if spriteBit b c then do
    let old ← fbRead d.fb (pixelIndex vx vy r c)
    let fb ← fbWrite d.fb (pixelIndex vx vy r c) (!old)
    .ok ⟨fb, d.hit || old⟩
  else .ok d

/-- One sprite row: its columns in the order given (R71). -/
def drawRow (vx vy : Byte) (r : Nat) (b : Byte) : Canvas → List Nat → Except FaultRaise Canvas
  | d, [] => .ok d
  | d, c :: cs => do
    let d' ← drawColumn vx vy r b d c
    drawRow vx vy r b d' cs

/-- The rows in the order given: each row's byte is read, then drawn (R71, R185, R238). -/
def drawRows (s : State) (vx vy : Byte) : Canvas → List Nat → Except FaultRaise Canvas
  | d, [] => .ok d
  | d, r :: rs => do
    let b ← s.memRead (s.ea r)
    let d' ← drawRow vx vy r b d spriteColumns
    drawRows s vx vy d' rs

/-- `Dxyn` (R185): the coordinates are read before the flag is written; the flag is 0 when nothing was hit (R189). -/
def execDrw (x y : RegNum) (n : Fin 16) (s : State) : Host.Outcome State Fault Refusal :=
  s.commit do
    let d ← drawRows s (s.reg x) (s.reg y) ⟨s.fb, false⟩ (List.range n.val)
    .ok (({ s with fb := d.fb, drawFlag := true }).setFlag d.hit).advance

end Sys2Proof.Machine
end

