-- ==== Sys2Proof/Machine/Immediate.lean ====
section
/-! DEFINITION. Machine/Immediate.lean: families 6, 7 and A (spec/43_load_add_immediate.md). -/

namespace Sys2Proof.Machine

/-- `6xkk` (R150). -/
def execLdImm (x : RegNum) (kk : Byte) (s : State) : Host.Outcome State Fault Refusal :=
  .next (s.setReg x kk).advance

/-- `7xkk` (R151): modulo 256, no flag. -/
def execAddImm (x : RegNum) (kk : Byte) (s : State) : Host.Outcome State Fault Refusal :=
  .next (s.setReg x (s.reg x + kk)).advance

/-- `Annn` (R152). -/
def execLdI (nnn : BitVec 12) (s : State) : Host.Outcome State Fault Refusal :=
  .next ({ s with I := zext16 nnn }).advance

end Sys2Proof.Machine
end

