-- ==== Sys2Proof/Machine/Jump.lean ====
section
/-! DEFINITION. Machine/Jump.lean: families 1, 2 and B (spec/41_jump_call.md). -/

namespace Sys2Proof.Machine

/-- `1nnn` (R130). -/
def execJp (nnn : BitVec 12) (s : State) : Host.Outcome State Fault Refusal := .next (s.jump (zext16 nnn))

/-- `2nnn` (R131): pushes its own address, not the one after it. -/
def execCall (nnn : BitVec 12) (s : State) : Host.Outcome State Fault Refusal :=
  s.commit do
    let t ← s.push s.pc
    .ok (t.jump (zext16 nnn))

/-- `Bnnn` (R132): always `V[0]`. -/
def execJpV0 (nnn : BitVec 12) (s : State) : Host.Outcome State Fault Refusal :=
  .next (s.jump (indexedTarget nnn (s.reg 0)))

end Sys2Proof.Machine
end

