-- ==== Sys2Proof/Machine/Key.lean ====
section
/-! DEFINITION. Machine/Key.lean: family E and `Fx0A` (spec/47_key.md). -/

namespace Sys2Proof.Machine

/-- `Ex9E` (R200): skip if the key is pressed. -/
def execSkp (x : RegNum) (s : State) : Host.Outcome State Fault Refusal :=
  s.commit do
    let k ← keyIndex (s.reg x)
    .ok (s.skipIf (s.keyDown k))

/-- `ExA1` (R201): skip if the key is not pressed. -/
def execSknp (x : RegNum) (s : State) : Host.Outcome State Fault Refusal :=
  s.commit do
    let k ← keyIndex (s.reg x)
    .ok (s.skipIf (!s.keyDown k))

/-- The blocked cycle (R202, R38 step 5): no state change; the output `blocked` is 1. -/
def State.block (s : State) : State := { s with out := { s.out with blocked := true } }

/-- `Fx0A` (R202): the lowest pressed key, or a blocked cycle when no key is down. -/
def execLdVxK (x : RegNum) (s : State) : Host.Outcome State Fault Refusal :=
  .next (match s.firstKey with
    | none => s.block
    | some k => (s.setReg x (BitVec.ofNat 8 k)).advance)

end Sys2Proof.Machine
end

