-- ==== Sys2Proof/Machine/Random.lean ====
section
/-! DEFINITION. Machine/Random.lean: family C (spec/45_random.md). -/

namespace Sys2Proof.Machine

/-- `Cxkk` (R180): the random byte is the cycle's input, any value (notes/assumptions/3.md). -/
def execRnd (x : RegNum) (kk : Byte) (s : State) : Host.Outcome State Fault Refusal :=
  .next (s.setReg x (s.input.rnd &&& kk)).advance

end Sys2Proof.Machine
end

