-- ==== Sys2Proof/Machine/TimerIndex.lean ====
section
/-! DEFINITION. Machine/TimerIndex.lean: family F, timer access, index arithmetic, font address
(spec/48_timer_index.md). The tick of the same cycle follows (Machine/Cycle.lean). -/

namespace Sys2Proof.Machine

/-- `Fx07` (R210). -/
def execLdVxDT (x : RegNum) (s : State) : Host.Outcome State Fault Refusal := .next (s.setReg x s.DT).advance

/-- `Fx15` (R211). -/
def execLdDTVx (x : RegNum) (s : State) : Host.Outcome State Fault Refusal :=
  .next ({ s with DT := s.reg x }).advance

/-- `Fx18` (R212). -/
def execLdSTVx (x : RegNum) (s : State) : Host.Outcome State Fault Refusal :=
  .next ({ s with ST := s.reg x }).advance

/-- `Fx1E` (R213): modulo 65536, no flag. -/
def execAddI (x : RegNum) (s : State) : Host.Outcome State Fault Refusal :=
  .next ({ s with I := s.I + (s.reg x).setWidth 16 }).advance

/-- `Fx29` (R214). -/
def execLdF (x : RegNum) (s : State) : Host.Outcome State Fault Refusal :=
  .next ({ s with I := glyphAddress (s.reg x) }).advance

end Sys2Proof.Machine
end

