-- ==== Sys2Proof/Machine/Transfer.lean ====
section
/-! DEFINITION. Machine/Transfer.lean: family F, BCD store, register dump, register load
(spec/49_memory_transfer.md). `I` is unchanged by all three (decision D21). -/

namespace Sys2Proof.Machine

/-- Stores the registers of the list, `V[i]` at `I + i`, in the order of the list (R221, R71). -/
def storeRegs : State → List RegNum → Except FaultRaise State
  | s, [] => .ok s
  | s, i :: is => do
    let t ← s.memWrite (s.ea i.val) (s.reg i)
    storeRegs t is

/-- Loads the registers of the list, `V[i]` from `I + i`, in the order of the list (R222, R71). -/
def loadRegs : State → List RegNum → Except FaultRaise State
  | s, [] => .ok s
  | s, i :: is => do
    let b ← s.memRead (s.ea i.val)
    loadRegs (s.setReg i b) is

/-- The three digits of `v` at `I`, `I + 1`, `I + 2`, hundreds first (R220, R71). -/
def storeBcd (s : State) (v : Byte) : Except FaultRaise State := do
  let a ← s.memWrite (s.ea 0) (bcdHundreds v)
  let b ← a.memWrite (a.ea 1) (bcdTens v)
  b.memWrite (b.ea 2) (bcdOnes v)

/-- `Fx33` (R220). -/
def execLdB (x : RegNum) (s : State) : Host.Outcome State Fault Refusal :=
  s.commit do
    let t ← storeBcd s (s.reg x)
    .ok t.advance

/-- `Fx55` (R221). -/
def execLdMemVx (x : RegNum) (s : State) : Host.Outcome State Fault Refusal :=
  s.commit do
    let t ← storeRegs s (regsUpTo x)
    .ok t.advance

/-- `Fx65` (R222). -/
def execLdVxMem (x : RegNum) (s : State) : Host.Outcome State Fault Refusal :=
  s.commit do
    let t ← loadRegs s (regsUpTo x)
    .ok t.advance

end Sys2Proof.Machine
end

