-- ==== Sys2Proof/Machine/Step.lean ====
section
/-! DEFINITION. Machine/Step.lean: one cycle (spec/10_state.md R38). Its parts are in Machine/Cycle.lean. -/

namespace Sys2Proof.Machine

/-- Step 4 of the cycle: the decoded instruction's meaning, or the unknown-instruction rule (R97, R99). -/
def runWord (w : Word) (s : State) : Host.Outcome State Fault Refusal :=
  match decode w with
  | .known i => exec i s
  | .unknown _ => .next (s.unknownInstruction w)

/-- One cycle (R38): nothing while halted; else fetch, execute, and end the cycle. -/
def step (s : State) : Host.Outcome State Fault Refusal :=
  if s.FAULT then .next s.haltedCycle
  else
    match s.fetch with
    | .error e => .next (s.fetchFaultCycle e)
    | .ok w =>
      match runWord w s.beginCycle with
      | .next t => .next t.endCycle
      | .fault r => .fault r
      | .refused r => .refused r

/-- `s` with the instruction whose bits are `w` (numbered as spec/opcode_table.json numbers them) stored where
`step` fetches its next instruction (notes/assumptions/12.md). -/
def State.withFetchWord (s : State) (nbits w : Nat) : State := s.placeWord (tableWord nbits w)

end Sys2Proof.Machine
end

