-- ==== Sys2Proof/Machine/Loader.lean ====
section
/-! DEFINITION. Machine/Loader.lean: the host's two acts on a core held in reset, loading a ROM and asserting
`reset` (spec/70_reset_and_hazards.md R270 to R278). They are not steps of the core. -/

namespace Sys2Proof.Machine

/-- The loader (R276, R277): byte `k` of the image goes to `0x200 + k` and `pc` to 0x200; an image of more than
3584 bytes is `RomTooLarge`, and then nothing is loaded and there is no launch state (R278). -/
def State.loadRom (s : State) (rom : List Byte) : Option State :=
  if rom.length ≤ Config.romMax then
    some { s with memory := s.memory.writeBytes Config.loadAddr rom, pc := BitVec.ofNat 16 Config.loadAddr }
  else none

/-- The launch state of a ROM, for the default `FONT_TABLE` and `MEM_FILL`: reset, then load (R41, R271). -/
def launch (rom : List Byte) : Option State := State.reset.loadRom rom

/-- Main memory after reset with the open parameters `FONT_TABLE` and `MEM_FILL` (R7, R271 steps 1 and 2). -/
def resetImage (font : Vector Byte 80) (fill : Byte) (a : Nat) : Byte := (font[a]?).getD fill

/-- The state after reset of a core whose parameters are `font` and `fill`, before the load: `State.reset` but for
main memory (R7, R41, R271 steps 1 to 3; decisions D17, D18). -/
def State.resetWith (font : Vector Byte 80) (fill : Byte) : State :=
  { State.reset with memory := Memory.ofImage (resetImage font fill) }

/-- The launch state for any `FONT_TABLE`, any `MEM_FILL` and a ROM (R7, R41; decisions D17, D18, D23). -/
def launchWith (font : Vector Byte 80) (fill : Byte) (rom : List Byte) : Option State :=
  (State.resetWith font fill).loadRom rom

/-- The host asserts `reset` between cycles, with `rom` in the loader, on a core whose parameters are `font` and
`fill` (R36, R270, decision D27): every piece of state takes its value of R41, whatever it held, a halted core
included, and `FONT_TABLE` and ROM are loaded again. `FONT_TABLE` and `MEM_FILL` are configuration and no state
(R7, R35), so they are arguments here as in `launchWith`: the same ones for one core. What the host is going to
present to later cycles is its own (notes/assumptions/2.md). -/
def State.assertReset (s : State) (font : Vector Byte 80) (fill : Byte) (rom : List Byte) : Option State :=
  (launchWith font fill rom).map fun t => { t with inputs := s.inputs, cycleNo := s.cycleNo }

end Sys2Proof.Machine
end

