-- ==== Sys2Proof/Safety.lean ====
section
/-! DEFINITION. Safety.lean: the words statements are made of: what a safe run is, the invariant of the machine, and
what an instruction leaves unchanged. -/

namespace Sys2Proof.Machine

/-! ## Safe runs -/

/-- The core is running: no fault has halted it (R33). A claim about a program has this to prove (R240). -/
abbrev State.running (s : State) : Prop := s.FAULT = false

/-- The suggested end of a run (R292, decision D31): running, and the word at `pc` is `1nnn` with `nnn = pc`. -/
def State.finished (s : State) : Prop :=
  s.running ∧ ∃ nnn : BitVec 12, s.fetch = .ok (encode (.jp nnn)) ∧ s.pc.toNat = nnn.toNat

/-- The host keeps its side of `rnd_in`: a byte from `RND_MIN` = 1 up (R36, R180). No rule of the machine rests on
it (notes/assumptions/3.md). -/
abbrev CycleInput.legal (c : CycleInput) : Prop := Config.rndMin ≤ c.rnd.toNat

/-- The state `s` halted by a fault (R231, R240): the three fault registers and nothing else. -/
def State.haltedBy (s : State) (cause : BitVec 3) (info : Nat) : State :=
  { s with FAULT := true, CAUSE := cause, FINFO := BitVec.ofNat 17 info }

/-- The records of R230: each cause with the values `FINFO` can hold under it; causes 2, 5 and 6 record `pc`. -/
def legalFaultRecord (cause : BitVec 3) (info pc : Nat) : Prop :=
  (cause = 1 ∧ 0x1000 ≤ info ∧ info ≤ 0x1000E) ∨
  (cause = 2 ∧ info = pc ∧ 0xFFF ≤ info ∧ info ≤ 0x10FE) ∨
  (cause = 3 ∧ 2048 ≤ info ∧ info ≤ 17478) ∨
  (cause = 4 ∧ 16 ≤ info ∧ info ≤ 255) ∨
  (cause = 5 ∧ info = pc ∧ info ≤ 0xFFE) ∨
  (cause = 6 ∧ info = pc ∧ info ≤ 0xFFE)

/-- What holds of the machine between cycles. -/
structure State.Inv (s : State) : Prop where
  /-- main memory is in canonical form, nothing listed outside it -/
  memory_wf : s.memory.wf
  /-- the largest value `pc` can hold (R28) -/
  pc_le : s.pc.toNat ≤ 0x10FE
  /-- every stack entry is 0 or the address of a `2nnn` that was fetched (R28) -/
  stack_le : ∀ j : Fin 16, (s.stack[j.val]).toNat ≤ 0xFFE
  /-- `drawFlag` is 0 at every cycle boundary (R32) -/
  drawFlag_clear : s.drawFlag = false
  /-- the fault registers are 0 while running (R33) -/
  running_record : s.FAULT = false → s.CAUSE = 0 ∧ s.FINFO = 0
  /-- a halted core holds a record of R230 -/
  halted_record : s.FAULT = true → legalFaultRecord s.CAUSE s.FINFO.toNat s.pc.toNat

/-! ## Frames -/

/-- The parts of the state besides the general registers. -/
inductive Part where
  | index | pc | stack | delay | sound | memory | pixels | drawFlag | faultRegs | outputs | host
  deriving DecidableEq, Repr

/-- Every part not named in `touched` is unchanged; memory and framebuffer through the reading of one byte and of
one pixel. -/
def frameBut (touched : List Part) (s t : State) : Prop :=
  (.index ∉ touched → t.I = s.I) ∧
  (.pc ∉ touched → t.pc = s.pc) ∧
  (.stack ∉ touched → t.sp = s.sp ∧ ∀ j : Fin 16, t.stack[j.val] = s.stack[j.val]) ∧
  (.delay ∉ touched → t.DT = s.DT) ∧
  (.sound ∉ touched → t.ST = s.ST) ∧
  (.memory ∉ touched → ∀ a : Nat, t.readByte a = s.readByte a) ∧
  (.pixels ∉ touched → ∀ p : Nat, t.pixel p = s.pixel p) ∧
  (.drawFlag ∉ touched → t.drawFlag = s.drawFlag) ∧
  (.faultRegs ∉ touched → t.FAULT = s.FAULT ∧ t.CAUSE = s.CAUSE ∧ t.FINFO = s.FINFO) ∧
  (.outputs ∉ touched → t.out = s.out) ∧
  (.host ∉ touched → t.inputs = s.inputs ∧ t.cycleNo = s.cycleNo)

/-- Every general register not named in `xs` is unchanged. -/
def regsBut (xs : List RegNum) (s t : State) : Prop := ∀ r : RegNum, r ∉ xs → t.reg r = s.reg r

/-- The instruction completes, writes `v` to `V[x]` and `pc + 2` to `pc`, and changes nothing else. -/
def writesRegister (i : Instr) (s : State) (x : RegNum) (v : Byte) : Prop :=
  ∃ t, exec i s = .next t ∧ t.reg x = v ∧ regsBut [x] s t ∧ t.pc = s.pc + 2 ∧ frameBut [.pc] s t

/-- The instruction completes, writes `v` to `V[x]`, then `f` to `V[0xF]`, so that with `x = 0xF` the flag is what
remains (R23), and `pc + 2` to `pc`, and changes nothing else. -/
def writesResultAndFlag (i : Instr) (s : State) (x : RegNum) (v f : Byte) : Prop :=
  ∃ t, exec i s = .next t ∧ t.reg 0xF = f ∧ (x ≠ 0xF → t.reg x = v) ∧ regsBut [x, 0xF] s t ∧
    t.pc = s.pc + 2 ∧ frameBut [.pc] s t

/-- The instruction completes, writes `pc` and changes nothing else. -/
def writesPc (i : Instr) (s : State) (target : Word) : Prop :=
  ∃ t, exec i s = .next t ∧ t.pc = target ∧ regsBut [] s t ∧ frameBut [.pc] s t

/-! ## What a draw covers (R185 to R188), in the rule's own terms -/

/-- Bit `(r, c)` of the sprite at `I` is set: byte `r`, bit `7 - c` (R186). -/
def State.spriteBitSet (s : State) (r c : Nat) : Prop := (s.readByte (s.I.toNat + r)).getLsbD (7 - c) = true

/-- The pixel of bit `(r, c)`: `(V[x] + c) + (V[y] + r) * 64` (R187). -/
def State.spritePixel (s : State) (x y : RegNum) (r c : Nat) : Nat :=
  ((s.reg x).toNat + c) + ((s.reg y).toNat + r) * 64

/-- Some set bit of the `n`-row sprite at `I`, drawn at `(V[x], V[y])`, falls on pixel `p`. -/
def State.spriteCovers (s : State) (x y : RegNum) (n : Nat) (p : Nat) : Prop :=
  ∃ r c, r < n ∧ c < 8 ∧ s.spriteBitSet r c ∧ s.spritePixel x y r c = p

end Sys2Proof.Machine
end

