-- ==== Sys2Proof/Certificates/Slice0/Obligations.lean ====
section
/-! DEFINITION. Certificates/Slice0/Obligations.lean: the statements for the provers. Each docstring names the rules
of spec/ it formalises; the words used are those of Sys2Proof/Safety.lean. -/

open Sys2Proof Sys2Proof.Machine

/-- O1 (R41, 92_eei_decisions.md D1, D3, D17, D18; derived). After reset and load every piece of state holds its
value of R41. The values R41 marks as decisions, and the font's place in it, are the spec's own (D1, D3, D17, D18;
notes/assumptions/4.md, 21.md). -/
def Obligations.ResetAndLoadHoldRule41Values : Prop :=
  ∀ (font : Vector Byte 80) (rom : List Byte), rom.length ≤ 3584 →
    ∃ s, launchWith font 0x00 rom = some s ∧
      (∀ r : RegNum, s.reg r = 0x00) ∧ s.I = 0x0000 ∧ s.pc = 0x0200 ∧ s.sp.val = 0 ∧
      (∀ j : Fin 16, s.stack[j.val] = 0x0000) ∧ s.DT = 0x00 ∧ s.ST = 0x00 ∧
      (∀ p : Nat, s.pixel p = false) ∧ s.drawFlag = false ∧
      s.FAULT = false ∧ s.CAUSE = 0 ∧ s.FINFO = 0 ∧
      (∀ (a : Nat) (h : a < 80), s.readByte a = font[a]) ∧
      (∀ a : Nat, 0x050 ≤ a → a ≤ 0x1FF → s.readByte a = 0x00) ∧
      (∀ (k : Nat) (h : k < rom.length), s.readByte (0x200 + k) = rom[k]) ∧
      (∀ a : Nat, 0x200 + rom.length ≤ a → a ≤ 0xFFF → s.readByte a = 0x00) ∧
      s.out = ⟨false, false, false, 0x0000, false⟩

/-- O2 (R7, R67, 92_eei_decisions.md D17, D18; derived). The launch state of a ROM is the one with the default
FONT_TABLE and MEM_FILL 0x00; with no ROM it is State.reset. The bytes of the table are the spec's general-knowledge
passage (notes/assumptions/4.md). -/
def Obligations.LaunchTakesTheDefaultFontAndZeroFill : Prop :=
  launch [] = some State.reset ∧
    ∀ font : Vector Byte 80, font.toList = fontTable → ∀ rom, launchWith font 0x00 rom = launch rom

/-- O3 (R41, R276, R277, R278, 92_eei_decisions.md D17, notes/assumptions/4.md; derived). A ROM has a launch state
exactly when it is at most 3584 bytes, and lands at 0x200. The bytes 0x00 after the ROM are MEM_FILL, the spec's
decision D17 and the model's DESIGN CHOICE (notes/assumptions/4.md); for the empty ROM R277 marks them as its own
derivation. -/
def Obligations.OversizedRomHasNoLaunchState : Prop :=
  ∀ rom : List Byte, (launch rom = none ↔ 3584 < rom.length) ∧
    (rom.length ≤ 3584 → ∃ s, launch rom = some s ∧ s.pc = 0x0200 ∧
      (∀ (k : Nat) (h : k < rom.length), s.readByte (0x200 + k) = rom[k]) ∧
      ∀ a : Nat, 0x200 + rom.length ≤ a → a ≤ 0xFFF → s.readByte a = 0x00)

/-- O4 (R36, R270, 92_eei_decisions.md D17, D18, D27; derived). Asserting reset puts every piece of state at its
reset value, whatever it held before, and reloads font and ROM. What R41 leaves to decisions is the spec's own
(notes/assumptions/4.md, 21.md); keeping the host's schedule is the model's (notes/assumptions/2.md). -/
def Obligations.ResetForgetsTheOldState : Prop :=
  ∀ (s : State) (font : Vector Byte 80) (fill : Byte) (rom : List Byte), rom.length ≤ 3584 →
    ∃ t u, s.assertReset font fill rom = some t ∧ launchWith font fill rom = some u ∧ t.FAULT = false ∧
      (∀ (a : Nat) (h : a < 80), t.readByte a = font[a]) ∧
      (∀ (k : Nat) (h : k < rom.length), t.readByte (0x200 + k) = rom[k]) ∧
      regsBut [] u t ∧ frameBut [.host] u t

/-- O5 (R28, R32, R33, R41; derived). The invariant holds after reset. The invariant is the model's. -/
def Obligations.ResetMeetsTheInvariant : Prop :=
  State.reset.Inv

/-- O6 (R25, R28, R32, R33, R34, R62, R63, R230, R231, R242; derived). Every step keeps the invariant of the
machine. The invariant is the model's. -/
def Obligations.StepKeepsTheInvariant : Prop :=
  ∀ s t : State, s.Inv → step s = .next t → t.Inv

/-- O7 (R91, R92, R96; derived). Decoding the encoding of any instruction gives it back. -/
def Obligations.DecodeOfEncodeIsTheInstruction : Prop :=
  ∀ i : Instr, decode (encode i) = .known i

/-- O8 (R92, R95, R96; derived). Re-encoding a decoded word gives the word with the ignored low nibble of families 5
and 9 cleared. -/
def Obligations.EncodeOfDecodeIsTheCanonicalWord : Prop :=
  ∀ (w : Word) (i : Instr), decode w = .known i →
    encode i = if w.extractLsb' 12 4 = 0x5 ∨ w.extractLsb' 12 4 = 0x9 then w &&& 0xFFF0 else w

/-- O9 (R96; stated). Decoding a word and selecting a row of the opcode map are the same. Spec decision D11 for the
low nibble of families 5 and 9. -/
def Obligations.DecoderAgreesWithTheOpcodeMap : Prop :=
  opcodeTable.length = 34 ∧
  (∀ (w : Word) (r r' : OpcodeRow), r ∈ opcodeTable → r' ∈ opcodeTable →
    w &&& r.mask = r.pattern → w &&& r'.mask = r'.pattern → r = r') ∧
  (∀ i : Instr, rowOf i ∈ opcodeTable) ∧
  (∀ (w : Word) (i : Instr), decode w = .known i → w &&& (rowOf i).mask = (rowOf i).pattern) ∧
  (∀ (w : Word) (f : UnknownFamily), decode w = .unknown f → ∀ r ∈ opcodeTable, w &&& r.mask ≠ r.pattern)

/-- O10 (R94, R97, R98; derived). The unknown words are exactly the words R98 lists, family by family. -/
def Obligations.UnknownWordsAreThoseOfRule98 : Prop :=
  ∀ w : Word,
    (decode w = .unknown .family0 ↔ w.extractLsb' 12 4 = 0x0 ∧ w ≠ 0x00E0 ∧ w ≠ 0x00EE) ∧
    (decode w = .unknown .family8 ↔ w.extractLsb' 12 4 = 0x8 ∧
      (w.extractLsb' 0 4).toNat ∈ [0x8, 0x9, 0xA, 0xB, 0xC, 0xD, 0xF]) ∧
    (decode w = .unknown .familyE ↔ w.extractLsb' 12 4 = 0xE ∧ (w.extractLsb' 0 8).toNat ∉ [0x9E, 0xA1]) ∧
    (decode w = .unknown .familyF ↔ w.extractLsb' 12 4 = 0xF ∧
      (w.extractLsb' 0 8).toNat ∉ [0x07, 0x0A, 0x15, 0x18, 0x1E, 0x29, 0x33, 0x55, 0x65])

/-- O11 (R95; stated). Every word 5xyN is SE Vx, Vy and every word 9xyN is SNE Vx, Vy. Spec decision D11. -/
def Obligations.LowNibbleOfFamilies5And9IsIgnored : Prop :=
  ∀ w : Word,
    (w.extractLsb' 12 4 = 0x5 → decode w = .known (.seReg (w.extractLsb' 8 4).toFin (w.extractLsb' 4 4).toFin)) ∧
    (w.extractLsb' 12 4 = 0x9 → decode w = .known (.sneReg (w.extractLsb' 8 4).toFin (w.extractLsb' 4 4).toFin))

/-- O12 (R92, R96, R98, 95_test_vectors.md part 2; derived). One word of each family, written out from the spec,
decodes to its instruction. -/
def Obligations.WordsOfTheSpecDecodeAsWritten : Prop :=
  decode 0x00EE = .known .ret ∧ decode 0x1ABC = .known (.jp 0xABC) ∧ decode 0x2300 = .known (.call 0x300) ∧
  decode 0x3342 = .known (.seImm 0x3 0x42) ∧ decode 0x4342 = .known (.sneImm 0x3 0x42) ∧
  decode 0x512F = .known (.seReg 0x1 0x2) ∧ decode 0x6A7F = .known (.ldImm 0xA 0x7F) ∧
  decode 0x7203 = .known (.addImm 0x2 0x03) ∧ decode 0x8455 = .known (.sub 0x4 0x5) ∧
  decode 0x9120 = .known (.sneReg 0x1 0x2) ∧ decode 0xA2F0 = .known (.ldI 0x2F0) ∧
  decode 0xB300 = .known (.jpV0 0x300) ∧ decode 0xC30F = .known (.rnd 0x3 0x0F) ∧
  decode 0xD125 = .known (.drw 0x1 0x2 0x5) ∧ decode 0xE4A1 = .known (.sknp 0x4) ∧
  decode 0xF265 = .known (.ldVxMem 0x2) ∧ decode 0x0123 = .unknown .family0

/-- O13 (R38, R63, R64; derived). A step of a running core executes the instruction its bytes at pc decode to. -/
def Obligations.StepRunsTheDecodedInstruction : Prop :=
  ∀ (s : State) (i : Instr), s.FAULT = false → s.pc.toNat ≤ 0xFFE →
    decodeBytes (s.readByte s.pc.toNat) (s.readByte (s.pc.toNat + 1)) = .known i →
    s.beginCycle = { s with out := ⟨false, false, false, 0x0000, false⟩ } ∧
    ∃ t, exec i s.beginCycle = .next t ∧ step s = .next t.endCycle

/-- O14 (R38, R63, R64; derived). The instruction placed where step fetches is the one the next step runs. The
placing of a word is the model's (notes/assumptions/12.md). -/
def Obligations.StoredWordIsTheNextInstruction : Prop :=
  ∀ (s : State) (w : Word) (i : Instr), s.memory.wf → decode w = .known i →
    decodeTableWord 16 w.toNat = some i ∧
    (∀ t, exec i (s.withFetchWord 16 w.toNat).beginCycle = .next t →
      step (s.withFetchWord 16 w.toNat) = .next t.endCycle) ∧
    (s.FAULT = false → s.pc.toNat ≤ 0xFFE →
      regsBut [] s (s.withFetchWord 16 w.toNat) ∧ frameBut [.memory] s (s.withFetchWord 16 w.toNat) ∧
      ∀ a : Nat, a ≠ s.pc.toNat → a ≠ s.pc.toNat + 1 →
        (s.withFetchWord 16 w.toNat).readByte a = s.readByte a)

/-- O15 (R97, R230, R240, R242; derived). Every step of every state has a next state. -/
def Obligations.EveryStepHasANextState : Prop :=
  ∀ s : State, ∃ t, step s = .next t

/-- O16 (R63, 92_eei_decisions.md D5; derived). Fetch reads the big-endian word at pc, and a fetch beyond 0xFFE
halts the core. The fetch fault is the spec's decision D5 (notes/assumptions/6.md). -/
def Obligations.FetchIsBigEndianAndChecked : Prop :=
  ∀ s : State,
    (s.pc.toNat ≤ 0xFFE → ∃ w, s.fetch = .ok w ∧
      w.toNat = (s.readByte s.pc.toNat).toNat * 256 + (s.readByte (s.pc.toNat + 1)).toNat) ∧
    (s.FAULT = false → 0xFFE < s.pc.toNat → ∃ t, step s = .next t ∧
      t.FAULT = true ∧ t.CAUSE = 2 ∧ t.FINFO.toNat = s.pc.toNat ∧
      regsBut [] s t ∧ frameBut [.faultRegs, .outputs, .host] s t ∧ t.out = ⟨false, false, false, 0x0000, false⟩)

/-- O17 (R99; stated). An unknown word changes nothing but pc, is reported, and the timers tick. Spec decision D10.
-/
def Obligations.UnknownWordIsAReportedNoOp : Prop :=
  ∀ (s : State) (w : Word) (f : UnknownFamily), s.FAULT = false → s.fetch = .ok w → decode w = .unknown f →
    ∃ t, step s = .next t ∧ t.pc = s.pc + 2 ∧ t.out.unkValid = true ∧ t.out.unkInstr = w ∧
      t.out.blocked = false ∧ t.DT.toNat = s.DT.toNat - 1 ∧ t.ST.toNat = s.ST.toNat - 1 ∧
      regsBut [] s t ∧ frameBut [.pc, .delay, .sound, .drawFlag, .outputs, .host] s t

/-- O18 (R32, R38, R39, R245, 92_eei_decisions.md D14, D15, D24, notes/assumptions/19.md; derived). A cycle that
fetched a word ticks both timers once at its end if it completed, and not if it blocked or faulted. The halted cycle
is O19 and the fetch fault O16. No tick in a blocked cycle is the spec's decision D14 and R39's own derivation
(DEDUCED, notes/assumptions/19.md), draw_req and the clearing of drawFlag its decision D15, no beep by a write of 0
its decision D24. -/
def Obligations.CompletedCyclesTickTheTimersAndNoOthers : Prop :=
  ∀ (s t : State) (w : Word), s.FAULT = false → s.fetch = .ok w → runWord w s.beginCycle = .next t →
    ∃ u, step s = .next u ∧ regsBut [] t u ∧
      (t.FAULT = false → t.out.blocked = false →
        u.DT.toNat = t.DT.toNat - 1 ∧ u.ST.toNat = t.ST.toNat - 1 ∧
        u.out = ⟨t.drawFlag, decide (t.ST.toNat = 1), t.out.unkValid, t.out.unkInstr, false⟩ ∧
        u.drawFlag = false ∧ frameBut [.delay, .sound, .drawFlag, .outputs, .host] t u) ∧
      (t.FAULT = true ∨ t.out.blocked = true → u.out.beep = false ∧ u.out = t.out ∧ frameBut [.host] t u)

/-- O19 (R242, 92_eei_decisions.md D3; derived). While FAULT = 1 a cycle changes nothing and its one-cycle outputs
are 0. The fault registers and the halt are the spec's own (D3; notes/assumptions/6.md). -/
def Obligations.HaltedCycleIsEmpty : Prop :=
  ∀ s : State, s.FAULT = true → ∃ t, step s = .next t ∧ regsBut [] s t ∧ frameBut [.outputs, .host] s t ∧
    t.out = ⟨false, false, false, 0x0000, false⟩

/-- O20 (R231, 92_eei_decisions.md D3; derived). A cycle that raises a fault changes nothing but FAULT, CAUSE and
FINFO. All or nothing is the spec's own choice (D3; notes/assumptions/6.md). -/
def Obligations.FaultingCycleChangesOnlyTheFaultRegisters : Prop :=
  ∀ s t : State, s.FAULT = false → step s = .next t → t.FAULT = true →
    regsBut [] s t ∧ frameBut [.faultRegs, .outputs, .host] s t ∧
    t.out = ⟨false, false, false, 0x0000, false⟩ ∧ 1 ≤ t.CAUSE.toNat ∧ t.CAUSE.toNat ≤ 6

/-- O21 (R230, R235; derived). Only CALL, RET, DRW, SKP, SKNP, LD B, LD [I] and LD Vx,[I] can raise a fault, each
only the classes R230 gives it. -/
def Obligations.FaultIsRaisedOnlyByTheInstructionsOfRule230 : Prop :=
  ∀ (i : Instr) (s t : State), s.FAULT = false → exec i s = .next t → t.FAULT = true →
    (t.CAUSE = 1 ∧ ((∃ x, i = .ldB x) ∨ (∃ x, i = .ldMemVx x) ∨ (∃ x, i = .ldVxMem x))) ∨
    ((t.CAUSE = 1 ∨ t.CAUSE = 3) ∧ ∃ x y n, i = .drw x y n) ∨
    (t.CAUSE = 4 ∧ ((∃ x, i = .skp x) ∨ ∃ x, i = .sknp x)) ∨
    (t.CAUSE = 5 ∧ ∃ nnn, i = .call nnn) ∨
    (t.CAUSE = 6 ∧ i = .ret)

/-- O22 (R32, 92_eei_decisions.md D15; derived). draw_req of a cycle is 1 exactly when it executed 00E0 or Dxyn
without a fault; drawFlag is 0 after it. R32 marks the sentence on draw_req as its own derivation. -/
def Obligations.DrawRequestExactlyForClearAndDraw : Prop :=
  ∀ s t : State, s.drawFlag = false → step s = .next t →
    t.drawFlag = false ∧
    (t.out.drawReq = true ↔ s.FAULT = false ∧ t.FAULT = false ∧
      ∃ w, s.fetch = .ok w ∧ (decode w = .known .cls ∨ ∃ x y n, decode w = .known (.drw x y n)))

/-- O23 (R37, R235; derived). blocked, unk_valid and a new fault exclude one another, and draw_req and beep come
only from completed cycles. -/
def Obligations.CycleOutcomesExcludeOneAnother : Prop :=
  ∀ s t : State, s.drawFlag = false → step s = .next t →
    (t.out.blocked = true → t.out = ⟨false, false, false, 0x0000, true⟩ ∧ t.FAULT = false) ∧
    (t.out.unkValid = true → t.out.drawReq = false ∧ t.out.blocked = false ∧ t.FAULT = false) ∧
    (t.FAULT = true → t.out = ⟨false, false, false, 0x0000, false⟩) ∧
    (t.out.unkValid = false → t.out.unkInstr = 0x0000)

/-- O24 (R130, R292, 92_eei_decisions.md D31; derived). A program at a jump to itself stays there; only the timers
and the outputs change. The convention is the spec's decision D31. -/
def Obligations.FinishedProgramStaysFinished : Prop :=
  ∀ s : State, s.Inv → s.finished →
    ∃ t, step s = .next t ∧ t.finished ∧ regsBut [] s t ∧ frameBut [.delay, .sound, .outputs, .host] s t

/-- O25 (R120; stated). 00E0 clears every pixel and sets drawFlag. -/
def Obligations.ClearScreenClearsAndSetsDrawFlag : Prop :=
  ∀ s : State, ∃ t, exec .cls s = .next t ∧ (∀ p : Nat, t.pixel p = false) ∧ t.drawFlag = true ∧
    t.pc = s.pc + 2 ∧ regsBut [] s t ∧ frameBut [.pc, .pixels, .drawFlag] s t

/-- O26 (R121; stated). 00EE pops the call's address and continues 2 after it; at sp = 0 it halts with
StackUnderflow. Spec decision D9 for the fault. -/
def Obligations.ReturnPopsAndAddsTwo : Prop :=
  ∀ s : State,
    (∀ h : 0 < s.sp.val, ∃ t, exec .ret s = .next t ∧ t.sp.val = s.sp.val - 1 ∧
      t.pc = s.stack[s.sp.val - 1] + 2 ∧ (∀ j : Fin 16, t.stack[j.val] = s.stack[j.val]) ∧
      regsBut [] s t ∧ frameBut [.pc, .stack] s t) ∧
    (s.sp.val = 0 → exec .ret s = .next (s.haltedBy 6 s.pc.toNat))

/-- O27 (R131; stated). 2nnn pushes its own address and jumps; at sp = 16 it halts with StackOverflow. Spec decision
D9 for the fault. -/
def Obligations.CallPushesItsOwnAddress : Prop :=
  ∀ (s : State) (nnn : BitVec 12),
    (s.sp.val < 16 → ∃ t, exec (.call nnn) s = .next t ∧ t.sp.val = s.sp.val + 1 ∧ t.pc.toNat = nnn.toNat ∧
      (∀ j : Fin 16, t.stack[j.val] = if j.val = s.sp.val then s.pc else s.stack[j.val]) ∧
      regsBut [] s t ∧ frameBut [.pc, .stack] s t) ∧
    (s.sp.val = 16 → exec (.call nnn) s = .next (s.haltedBy 5 s.pc.toNat))

/-- O28 (R25, R121, R131, 95_test_vectors.md T8; derived). A return right after a call restores sp and continues 2
after the call. -/
def Obligations.CallThenReturnComesBack : Prop :=
  ∀ (s t : State) (nnn : BitVec 12), s.sp.val < 16 → exec (.call nnn) s = .next t →
    ∃ u, exec .ret t = .next u ∧ u.pc = s.pc + 2 ∧ u.sp = s.sp ∧
      (∀ j : Fin 16, j.val ≠ s.sp.val → u.stack[j.val] = s.stack[j.val]) ∧
      regsBut [] s u ∧ frameBut [.pc, .stack] s u

/-- O29 (R130, R132; stated). 1nnn sets pc to nnn, Bnnn to nnn + V[0], unmasked, and nothing else changes. -/
def Obligations.JumpsSetPcOnly : Prop :=
  ∀ (s : State) (nnn : BitVec 12),
    writesPc (.jp nnn) s (BitVec.ofNat 16 nnn.toNat) ∧
    writesPc (.jpV0 nnn) s (BitVec.ofNat 16 (nnn.toNat + (s.reg 0).toNat)) ∧
    nnn.toNat + (s.reg 0).toNat < 65536

/-- O30 (R140, R141; stated). 3xkk skips when V[x] = kk, 4xkk when V[x] differs from kk. -/
def Obligations.ImmediateSkipsFollowTheComparison : Prop :=
  ∀ (s : State) (x : RegNum) (kk : Byte),
    writesPc (.seImm x kk) s (if s.reg x = kk then s.pc + 4 else s.pc + 2) ∧
    writesPc (.sneImm x kk) s (if s.reg x ≠ kk then s.pc + 4 else s.pc + 2)

/-- O31 (R142, R143; stated). 5xy0 skips when V[x] = V[y], 9xy0 when they differ. -/
def Obligations.RegisterSkipsFollowTheComparison : Prop :=
  ∀ (s : State) (x y : RegNum),
    writesPc (.seReg x y) s (if s.reg x = s.reg y then s.pc + 4 else s.pc + 2) ∧
    writesPc (.sneReg x y) s (if s.reg x ≠ s.reg y then s.pc + 4 else s.pc + 2)

/-- O32 (R150, R151; stated). 6xkk loads kk into V[x]; 7xkk adds kk modulo 256 with no flag. -/
def Obligations.ImmediateLoadAndAddWriteOneRegister : Prop :=
  ∀ (s : State) (x : RegNum) (kk : Byte),
    writesRegister (.ldImm x kk) s x kk ∧
    writesRegister (.addImm x kk) s x (BitVec.ofNat 8 (((s.reg x).toNat + kk.toNat) % 256))

/-- O33 (R152, R213, R214; stated). Annn loads nnn into I, Fx1E adds V[x] modulo 65536, Fx29 loads V[x] * 5. Spec
decision D20 for the wrap. -/
def Obligations.IndexLoadsAndSums : Prop :=
  ∀ (s : State) (nnn : BitVec 12) (x : RegNum),
    (∃ t, exec (.ldI nnn) s = .next t ∧ t.I.toNat = nnn.toNat ∧ t.pc = s.pc + 2 ∧
      regsBut [] s t ∧ frameBut [.pc, .index] s t) ∧
    (∃ t, exec (.addI x) s = .next t ∧ t.I.toNat = (s.I.toNat + (s.reg x).toNat) % 65536 ∧ t.pc = s.pc + 2 ∧
      regsBut [] s t ∧ frameBut [.pc, .index] s t) ∧
    (∃ t, exec (.ldF x) s = .next t ∧ t.I.toNat = (s.reg x).toNat * 5 ∧ t.pc = s.pc + 2 ∧
      regsBut [] s t ∧ frameBut [.pc, .index] s t)

/-- O34 (R160, R161, R162, R163; stated). 8xy0 to 8xy3 write V[x] with the copy, OR, AND, XOR and leave the flag
alone. -/
def Obligations.MovesAndLogicWriteOneRegister : Prop :=
  ∀ (s : State) (x y : RegNum),
    writesRegister (.ldReg x y) s x (s.reg y) ∧
    writesRegister (.orReg x y) s x (s.reg x ||| s.reg y) ∧
    writesRegister (.andReg x y) s x (s.reg x &&& s.reg y) ∧
    writesRegister (.xorReg x y) s x (s.reg x ^^^ s.reg y)

/-- O35 (R164; stated). 8xy4 writes the sum modulo 256 and then the carry. -/
def Obligations.AddWritesSumThenCarry : Prop :=
  ∀ (s : State) (x y : RegNum),
    writesResultAndFlag (.addReg x y) s x
      (BitVec.ofNat 8 (((s.reg x).toNat + (s.reg y).toNat) % 256))
      (if (s.reg x).toNat + (s.reg y).toNat > 255 then 1 else 0)

/-- O36 (R23, R165, R167, 92_eei_decisions.md D12, notes/assumptions/20.md; derived). 8xy5 and 8xy7 write the
difference modulo 256 and then the no-borrow flag. That the flag remains at x = 0xF is the spec's decision D12 of
R23 (DEDUCED, notes/assumptions/20.md). -/
def Obligations.SubtractionsWriteDifferenceThenNoBorrow : Prop :=
  ∀ (s : State) (x y : RegNum),
    writesResultAndFlag (.sub x y) s x
      (BitVec.ofNat 8 (((s.reg x).toNat + 256 - (s.reg y).toNat) % 256))
      (if (s.reg x).toNat ≥ (s.reg y).toNat then 1 else 0) ∧
    writesResultAndFlag (.subn x y) s x
      (BitVec.ofNat 8 (((s.reg y).toNat + 256 - (s.reg x).toNat) % 256))
      (if (s.reg y).toNat ≥ (s.reg x).toNat then 1 else 0)

/-- O37 (R23, R166, R168, 92_eei_decisions.md D12, notes/assumptions/20.md; derived). 8xy6 and 8xyE shift V[x] by
one in place and write the bit shifted out; y is ignored. That the flag remains at x = 0xF is the spec's decision
D12 of R23 (DEDUCED, notes/assumptions/20.md). -/
def Obligations.ShiftsWriteResultThenTheBitShiftedOut : Prop :=
  ∀ (s : State) (x y : RegNum),
    writesResultAndFlag (.shr x y) s x (BitVec.ofNat 8 ((s.reg x).toNat / 2)) (BitVec.ofNat 8 ((s.reg x).toNat % 2)) ∧
    writesResultAndFlag (.shl x y) s x (BitVec.ofNat 8 ((s.reg x).toNat * 2 % 256))
      (BitVec.ofNat 8 ((s.reg x).toNat / 128))

/-- O38 (R36, R180, 92_eei_decisions.md D16, notes/assumptions/2.md, notes/assumptions/3.md; derived). Cxkk writes
the cycle's random byte AND kk, and no other instruction reads that byte. That RND runs on every byte, 0 included,
where R180 gives 1 to 255, is the model's choice (DESIGN CHOICE, notes/assumptions/3.md, among those of D16 and U8),
and inputs and withInputs are the model's own schedule (DESIGN CHOICE, notes/assumptions/2.md). -/
def Obligations.RandomIsMaskedInput : Prop :=
  ∀ (s : State) (x : RegNum) (kk : Byte),
    writesRegister (.rnd x kk) s x (s.input.rnd &&& kk) ∧
    (∀ c cs, s.inputs = c :: cs → s.input.rnd = c.rnd) ∧
    (s.input.legal → s.input.rnd &&& 0xFF ≠ 0x00) ∧
    (∀ (i : Instr) (t : State) (c d : CycleInput) (cs : List CycleInput), (∀ x' kk', i ≠ .rnd x' kk') →
      c.keys = d.keys → exec i (s.withInputs (c :: cs)) = .next t →
      exec i (s.withInputs (d :: cs)) = .next (t.withInputs (d :: cs)))

/-- O39 (R186, R187, R189, 92_eei_decisions.md D6, D7, D28; derived). A draw whose accesses are all in range XORs
exactly the pixels its set bits fall on, and V[0xF] reports whether one was set. Bit 7 leftmost and the flag cleared
at the start of a draw are the spec's general-knowledge decisions (notes/assumptions/5.md, 17.md). -/
def Obligations.DrawXorsTheSpriteAndReportsCollision : Prop :=
  ∀ (s : State) (x y : RegNum) (n : Fin 16),
    (∀ r, r < n.val → s.I.toNat + r ≤ 0xFFF) →
    (∀ p, s.spriteCovers x y n.val p → p ≤ 2047) →
    ∃ t, exec (.drw x y n) s = .next t ∧
      (∀ p, s.spriteCovers x y n.val p → t.pixel p = !s.pixel p) ∧
      (∀ p, ¬ s.spriteCovers x y n.val p → t.pixel p = s.pixel p) ∧
      ((∃ p, s.spriteCovers x y n.val p ∧ s.pixel p = true) → t.reg 0xF = 1) ∧
      ((¬ ∃ p, s.spriteCovers x y n.val p ∧ s.pixel p = true) → t.reg 0xF = 0) ∧
      t.drawFlag = true ∧ t.pc = s.pc + 2 ∧
      regsBut [0xF] s t ∧ frameBut [.pc, .pixels, .drawFlag] s t

/-- O40 (R185, R188, R238; derived). A draw halts at the first access out of range, row by row, the sprite byte
before the row's pixels. Bit 7 leftmost is the spec's general-knowledge decision (notes/assumptions/5.md). -/
def Obligations.DrawHaltsAtItsFirstBadAccess : Prop :=
  ∀ (s : State) (x y : RegNum) (n : Fin 16) (r : Nat), r < n.val →
    (∀ q, q < r → s.I.toNat + q ≤ 0xFFF) → (∀ p, s.spriteCovers x y r p → p ≤ 2047) →
    (0xFFF < s.I.toNat + r → exec (.drw x y n) s = .next (s.haltedBy 1 (s.I.toNat + r))) ∧
    (∀ c, c < 8 → s.I.toNat + r ≤ 0xFFF → s.spriteBitSet r c → 2047 < s.spritePixel x y r c →
      (∀ k, k < c → s.spriteBitSet r k → s.spritePixel x y r k ≤ 2047) →
      exec (.drw x y n) s = .next (s.haltedBy 3 (s.spritePixel x y r c)))

/-- O41 (R188; derived). R188's sufficient condition: a sprite within (V[x] + 7) + (V[y] + n - 1) * 64 <= 2047 draws
without a fault. -/
def Obligations.SpriteWithinBoundsNeverFaults : Prop :=
  ∀ (s : State) (x y : RegNum) (n : Fin 16), 0 < n.val →
    ((s.reg x).toNat + 7) + ((s.reg y).toNat + (n.val - 1)) * 64 ≤ 2047 → s.I.toNat + (n.val - 1) ≤ 0xFFF →
    ∃ t, exec (.drw x y n) s = .next t ∧ t.FAULT = s.FAULT ∧ t.pc = s.pc + 2 ∧ t.drawFlag = true

/-- O42 (R36, R200, R201, 92_eei_decisions.md D8, D26, D29, notes/assumptions/2.md, notes/assumptions/15.md;
derived). Ex9E skips if key V[x] is down, ExA1 if it is not; an index above 15 halts with KeyIndexFault. Which of 9E
and A1 skips on pressed is the spec's general-knowledge decision D29 (PRESUMED, notes/assumptions/15.md); that keys
are inputs of the cycle is R36 and its decision D26, and the field inputs of the last clause is the model's own
schedule (DESIGN CHOICE, notes/assumptions/2.md). -/
def Obligations.KeySkipsReadTheNamedKey : Prop :=
  ∀ (s : State) (x : RegNum),
    ((s.reg x).toNat ≤ 15 →
      writesPc (.skp x) s (if s.keyDown (s.reg x).toNat = true then s.pc + 4 else s.pc + 2) ∧
      writesPc (.sknp x) s (if s.keyDown (s.reg x).toNat = false then s.pc + 4 else s.pc + 2)) ∧
    (15 < (s.reg x).toNat →
      exec (.skp x) s = .next (s.haltedBy 4 (s.reg x).toNat) ∧
      exec (.sknp x) s = .next (s.haltedBy 4 (s.reg x).toNat)) ∧
    (∀ c cs, s.inputs = c :: cs → ∀ k, s.keyDown k = c.keys.getLsbD k)

/-- O43 (R202, 92_eei_decisions.md D13, D14; derived). Fx0A changes nothing in a blocked cycle, and takes the lowest
pressed key otherwise. Lowest key and no tick are the spec's decisions (notes/assumptions/19.md). -/
def Obligations.KeyWaitBlocksOrTakesTheLowestKey : Prop :=
  (∀ (s : State) (w : Word) (x : RegNum), s.FAULT = false → s.fetch = .ok w → decode w = .known (.ldVxK x) →
    (∀ k, k < 16 → s.keyDown k = false) →
    ∃ t, step s = .next t ∧ regsBut [] s t ∧ frameBut [.outputs, .host] s t ∧
      t.out = ⟨false, false, false, 0x0000, true⟩) ∧
  (∀ (s : State) (x : RegNum) (k : Nat), k < 16 → s.keyDown k = true → (∀ j, j < k → s.keyDown j = false) →
    writesRegister (.ldVxK x) s x (BitVec.ofNat 8 k))

/-- O44 (R36, R203, R234, notes/assumptions/2.md; derived). The keys affect only Ex9E, ExA1 and Fx0A. inputs and
withInputs are the model's own schedule (DESIGN CHOICE, notes/assumptions/2.md). -/
def Obligations.OnlyKeyInstructionsReadTheKeys : Prop :=
  ∀ (i : Instr) (s t : State) (c d : CycleInput) (cs : List CycleInput),
    (∀ x, i ≠ .skp x ∧ i ≠ .sknp x ∧ i ≠ .ldVxK x) → c.rnd = d.rnd →
    exec i (s.withInputs (c :: cs)) = .next t →
    exec i (s.withInputs (d :: cs)) = .next (t.withInputs (d :: cs))

/-- O45 (R210, R211, R212, 92_eei_decisions.md D24, D30; derived). Fx07 reads DT into V[x], Fx15 writes DT, Fx18
writes ST, and no instruction of the three changes anything else. Which low byte names which of the three is the
spec's general-knowledge decision (notes/assumptions/16.md). -/
def Obligations.TimerInstructionsMoveTheTimers : Prop :=
  ∀ (s : State) (x : RegNum),
    writesRegister (.ldVxDT x) s x s.DT ∧
    (∃ t, exec (.ldDTVx x) s = .next t ∧ t.DT = s.reg x ∧ t.pc = s.pc + 2 ∧
      regsBut [] s t ∧ frameBut [.pc, .delay] s t) ∧
    (∃ t, exec (.ldSTVx x) s = .next t ∧ t.ST = s.reg x ∧ t.pc = s.pc + 2 ∧
      regsBut [] s t ∧ frameBut [.pc, .sound] s t)

/-- O46 (R39, R211, R212, R245; derived). A cycle that executes Fx15 or Fx18 ends with the timer one below V[x], and
beeps when Fx18 wrote 1. Which low byte names which timer is the spec's general-knowledge decision
(notes/assumptions/16.md). -/
def Obligations.TimerWrittenIsOneLowerAtTheCyclesEnd : Prop :=
  ∀ (s : State) (w : Word) (x : RegNum), s.FAULT = false → s.fetch = .ok w →
    (decode w = .known (.ldDTVx x) → ∃ t, step s = .next t ∧ t.DT.toNat = (s.reg x).toNat - 1) ∧
    (decode w = .known (.ldSTVx x) → ∃ t, step s = .next t ∧ t.ST.toNat = (s.reg x).toNat - 1 ∧
      (t.out.beep = true ↔ (s.reg x).toNat = 1))

/-- O47 (R220; stated). Fx33 stores the three decimal digits of V[x] at I, I + 1, I + 2; beyond memory it halts.
Spec decisions D4 and D21. -/
def Obligations.BcdStoresThreeDigits : Prop :=
  ∀ (s : State) (x : RegNum), s.memory.wf →
    (s.ea 2 ≤ 0xFFF → ∃ t, exec (.ldB x) s = .next t ∧
      (t.readByte (s.ea 0)).toNat = (s.reg x).toNat / 100 ∧
      (t.readByte (s.ea 1)).toNat = (s.reg x).toNat / 10 % 10 ∧
      (t.readByte (s.ea 2)).toNat = (s.reg x).toNat % 10 ∧
      (∀ a : Nat, a < s.ea 0 ∨ s.ea 2 < a → t.readByte a = s.readByte a) ∧
      t.pc = s.pc + 2 ∧ regsBut [] s t ∧ frameBut [.pc, .memory] s t) ∧
    (0xFFF < s.ea 2 → exec (.ldB x) s = .next (s.haltedBy 1 (max s.I.toNat 0x1000)))

/-- O48 (R221; stated). Fx55 stores V[0] to V[x] at I to I + x and leaves I; beyond memory it halts. Spec decisions
D4 and D21. -/
def Obligations.RegisterDumpStoresV0ToVx : Prop :=
  ∀ (s : State) (x : RegNum), s.memory.wf →
    (s.ea x.val ≤ 0xFFF → ∃ t, exec (.ldMemVx x) s = .next t ∧
      (∀ i : RegNum, i.val ≤ x.val → t.readByte (s.ea i.val) = s.reg i) ∧
      (∀ a : Nat, a < s.ea 0 ∨ s.ea x.val < a → t.readByte a = s.readByte a) ∧
      t.pc = s.pc + 2 ∧ regsBut [] s t ∧ frameBut [.pc, .memory] s t) ∧
    (0xFFF < s.ea x.val → exec (.ldMemVx x) s = .next (s.haltedBy 1 (max s.I.toNat 0x1000)))

/-- O49 (R222; stated). Fx65 loads V[0] to V[x] from I to I + x and leaves I; beyond memory it halts. Spec decisions
D4 and D21. -/
def Obligations.RegisterLoadReadsV0ToVx : Prop :=
  ∀ (s : State) (x : RegNum),
    (s.ea x.val ≤ 0xFFF → ∃ t, exec (.ldVxMem x) s = .next t ∧
      (∀ i : RegNum, i.val ≤ x.val → t.reg i = s.readByte (s.ea i.val)) ∧
      (∀ i : RegNum, x.val < i.val → t.reg i = s.reg i) ∧
      t.pc = s.pc + 2 ∧ frameBut [.pc] s t) ∧
    (0xFFF < s.ea x.val → exec (.ldVxMem x) s = .next (s.haltedBy 1 (max s.I.toNat 0x1000)))

/-- O50 (R73, R74; derived). A register dump over the instruction stream is what the next fetch reads. -/
def Obligations.StoreIsSeenByTheNextFetch : Prop :=
  ∀ (s t : State) (x i j : RegNum), s.memory.wf → s.ea x.val ≤ 0xFFF → exec (.ldMemVx x) s = .next t →
    j.val = i.val + 1 → j.val ≤ x.val →
    (t.jump (BitVec.ofNat 16 (s.ea i.val))).fetch = .ok (s.reg i ++ s.reg j)

/-- O51 (R24, R25, R29, R30; derived). I changes only by Annn, Fx1E, Fx29; sp and the stack only by 2nnn, 00EE; DT
only by Fx15, ST only by Fx18. -/
def Obligations.OnlyNamedInstructionsWriteIndexStackAndTimers : Prop :=
  ∀ (i : Instr) (s t : State), exec i s = .next t →
    (t.I ≠ s.I → (∃ nnn, i = .ldI nnn) ∨ (∃ x, i = .addI x) ∨ ∃ x, i = .ldF x) ∧
    (t.sp ≠ s.sp → i = .ret ∨ ∃ nnn, i = .call nnn) ∧
    (t.stack ≠ s.stack → ∃ nnn, i = .call nnn) ∧
    (t.DT ≠ s.DT → ∃ x, i = .ldDTVx x) ∧
    (t.ST ≠ s.ST → ∃ x, i = .ldSTVx x)

/-- O52 (R31, R32, R60, R69; derived). Main memory changes only by Fx33 and Fx55; the framebuffer and drawFlag only
by 00E0 and Dxyn. -/
def Obligations.OnlyNamedInstructionsWriteMemoryAndPixels : Prop :=
  ∀ (i : Instr) (s t : State), exec i s = .next t →
    (t.memory ≠ s.memory → (∃ x, i = .ldB x) ∨ ∃ x, i = .ldMemVx x) ∧
    (t.fb ≠ s.fb ∨ t.drawFlag ≠ s.drawFlag → i = .cls ∨ ∃ x y n, i = .drw x y n)

/-- O53 (R22, R23, R189, 92_eei_decisions.md D7, D12, notes/assumptions/17.md, notes/assumptions/20.md; derived).
V[0xF] changes only by the flag-writing instructions or by naming register 0xF as x. V[0xF] = 0 after a draw without
collision is the spec's general-knowledge decision D7 of R189 (PRESUMED, notes/assumptions/17.md), and the flag
values at x = 0xF rest on its decision D12 of R23 (DEDUCED, notes/assumptions/20.md). -/
def Obligations.OnlyNamedInstructionsWriteTheFlag : Prop :=
  (∀ (i : Instr) (s t : State), exec i s = .next t → t.reg 0xF ≠ s.reg 0xF →
    (∃ x y, i = .addReg x y ∨ i = .sub x y ∨ i = .shr x y ∨ i = .subn x y ∨ i = .shl x y) ∨
    (∃ x y n, i = .drw x y n) ∨
    (∃ kk, i = .ldImm 0xF kk ∨ i = .addImm 0xF kk ∨ i = .rnd 0xF kk) ∨
    (∃ y, i = .ldReg 0xF y ∨ i = .orReg 0xF y ∨ i = .andReg 0xF y ∨ i = .xorReg 0xF y) ∨
    i = .ldVxDT 0xF ∨ i = .ldVxK 0xF ∨ i = .ldVxMem 0xF) ∧
  (∀ (s t : State) (x y : RegNum),
    (exec (.addReg x y) s = .next t → t.reg 0xF = if (s.reg x).toNat + (s.reg y).toNat > 255 then 1 else 0) ∧
    (exec (.sub x y) s = .next t → t.reg 0xF = if (s.reg x).toNat ≥ (s.reg y).toNat then 1 else 0) ∧
    (exec (.shr x y) s = .next t → t.reg 0xF = BitVec.ofNat 8 ((s.reg x).toNat % 2)) ∧
    (exec (.subn x y) s = .next t → t.reg 0xF = if (s.reg y).toNat ≥ (s.reg x).toNat then 1 else 0) ∧
    (exec (.shl x y) s = .next t → t.reg 0xF = BitVec.ofNat 8 ((s.reg x).toNat / 128))) ∧
  (∀ (s t : State) (x y : RegNum) (n : Fin 16), exec (.drw x y n) s = .next t → s.FAULT = false → t.FAULT = false →
    ((∃ p, s.pixel p = true ∧ t.pixel p = false) → t.reg 0xF = 1) ∧
    ((¬ ∃ p, s.pixel p = true ∧ t.pixel p = false) → t.reg 0xF = 0))
end

