-- ==== Sys2Proof/Laws/Decode.lean ====
section
/-! SUPPORT. Laws/Decode.lean: the fields of an encoded word, one lemma per format; words and their bytes. -/

namespace Sys2Proof

/-! ## Fields as numbers -/

/-- A field of four bits as a quotient and remainder (R92). -/
theorem nibbleAt_val (w : Word) (lo : Nat) : (nibbleAt w lo).val = w.toNat / 2 ^ lo % 16 := by
  show (w.extractLsb' lo 4).toNat = _
  simp [BitVec.extractLsb'_toNat, Nat.shiftRight_eq_div_pow]

theorem fieldKK_toNat (w : Word) : (fieldKK w).toNat = w.toNat % 256 := by
  simp [fieldKK, BitVec.extractLsb'_toNat]

theorem fieldNNN_toNat (w : Word) : (fieldNNN w).toNat = w.toNat % 4096 := by
  simp [fieldNNN, BitVec.extractLsb'_toNat]

/-! ## Encoded words as numbers -/

theorem nibbleBits_toNat (x : Fin 16) : (nibbleBits x).toNat = x.val := by
  simp [nibbleBits]

theorem encodeNNN_toNat (f : BitVec 4) (nnn : BitVec 12) : (encodeNNN f nnn).toNat = f.toNat * 4096 + nnn.toNat := by
  show (f ++ nnn).toNat = _
  rw [BitVec.toNat_append, ← Nat.shiftLeft_add_eq_or_of_lt nnn.isLt, Nat.shiftLeft_eq]

theorem encodeXKK_toNat (f : BitVec 4) (x : RegNum) (kk : Byte) :
    (encodeXKK f x kk).toNat = f.toNat * 4096 + x.val * 256 + kk.toNat := by
  show (f ++ nibbleBits x ++ kk).toNat = _
  rw [BitVec.toNat_append, ← Nat.shiftLeft_add_eq_or_of_lt kk.isLt, Nat.shiftLeft_eq,
    BitVec.toNat_append, ← Nat.shiftLeft_add_eq_or_of_lt (nibbleBits x).isLt, Nat.shiftLeft_eq, nibbleBits_toNat]
  omega

theorem encodeXYN_toNat (f : BitVec 4) (x y : RegNum) (n : BitVec 4) :
    (encodeXYN f x y n).toNat = f.toNat * 4096 + x.val * 256 + y.val * 16 + n.toNat := by
  show (f ++ nibbleBits x ++ nibbleBits y ++ n).toNat = _
  rw [BitVec.toNat_append, ← Nat.shiftLeft_add_eq_or_of_lt n.isLt, Nat.shiftLeft_eq,
    BitVec.toNat_append, ← Nat.shiftLeft_add_eq_or_of_lt (nibbleBits y).isLt, Nat.shiftLeft_eq, nibbleBits_toNat,
    BitVec.toNat_append, ← Nat.shiftLeft_add_eq_or_of_lt (nibbleBits x).isLt, Nat.shiftLeft_eq, nibbleBits_toNat]
  omega

/-! ## The fields of each format -/

theorem family_encodeNNN (f : BitVec 4) (nnn : BitVec 12) : (family (encodeNNN f nnn)).val = f.toNat := by
  have := f.isLt; have := nnn.isLt
  rw [family, nibbleAt_val, encodeNNN_toNat]; omega

theorem family_encodeXKK (f : BitVec 4) (x : RegNum) (kk : Byte) : (family (encodeXKK f x kk)).val = f.toNat := by
  have := f.isLt; have := x.isLt; have := kk.isLt
  rw [family, nibbleAt_val, encodeXKK_toNat]; omega

theorem family_encodeXYN (f : BitVec 4) (x y : RegNum) (n : BitVec 4) :
    (family (encodeXYN f x y n)).val = f.toNat := by
  have := f.isLt; have := x.isLt; have := y.isLt; have := n.isLt
  rw [family, nibbleAt_val, encodeXYN_toNat]; omega

theorem fieldNNN_encodeNNN (f : BitVec 4) (nnn : BitVec 12) : fieldNNN (encodeNNN f nnn) = nnn := by
  have := nnn.isLt
  apply BitVec.eq_of_toNat_eq
  rw [fieldNNN_toNat, encodeNNN_toNat]; omega

theorem fieldX_encodeXKK (f : BitVec 4) (x : RegNum) (kk : Byte) : fieldX (encodeXKK f x kk) = x := by
  have := x.isLt; have := kk.isLt
  apply Fin.ext
  rw [fieldX, nibbleAt_val, encodeXKK_toNat]; omega

theorem fieldKK_encodeXKK (f : BitVec 4) (x : RegNum) (kk : Byte) : fieldKK (encodeXKK f x kk) = kk := by
  have := kk.isLt
  apply BitVec.eq_of_toNat_eq
  rw [fieldKK_toNat, encodeXKK_toNat]; omega

theorem fieldX_encodeXYN (f : BitVec 4) (x y : RegNum) (n : BitVec 4) : fieldX (encodeXYN f x y n) = x := by
  have := x.isLt; have := y.isLt; have := n.isLt
  apply Fin.ext
  rw [fieldX, nibbleAt_val, encodeXYN_toNat]; omega

theorem fieldY_encodeXYN (f : BitVec 4) (x y : RegNum) (n : BitVec 4) : fieldY (encodeXYN f x y n) = y := by
  have := y.isLt; have := n.isLt
  apply Fin.ext
  rw [fieldY, nibbleAt_val, encodeXYN_toNat]; omega

theorem fieldN_encodeXYN (f : BitVec 4) (x y : RegNum) (n : BitVec 4) :
    (fieldN (encodeXYN f x y n)).val = n.toNat := by
  have := n.isLt
  rw [fieldN, nibbleAt_val, encodeXYN_toNat]; omega

/-! ## Masks of the opcode map -/

theorem encodeNNN_and_family (f : BitVec 4) (nnn : BitVec 12) : encodeNNN f nnn &&& 0xF000 = f ++ 0#12 := by
  show (f ++ nnn) &&& (0xF#4 ++ 0#12) = _
  rw [BitVec.and_append, BitVec.and_zero, show (0xF#4) = BitVec.allOnes 4 from rfl, BitVec.and_allOnes]

theorem encodeXKK_and_family (f : BitVec 4) (x : RegNum) (kk : Byte) :
    encodeXKK f x kk &&& 0xF000 = f ++ 0#4 ++ 0#8 := by
  show (f ++ nibbleBits x ++ kk) &&& (0xF#4 ++ 0#4 ++ 0#8) = _
  rw [BitVec.and_append, BitVec.and_append, BitVec.and_zero, BitVec.and_zero,
    show (0xF#4) = BitVec.allOnes 4 from rfl, BitVec.and_allOnes]

theorem encodeXKK_and_low_byte (f : BitVec 4) (x : RegNum) (kk : Byte) :
    encodeXKK f x kk &&& 0xF0FF = f ++ 0#4 ++ kk := by
  show (f ++ nibbleBits x ++ kk) &&& (0xF#4 ++ 0#4 ++ 0xFF#8) = _
  rw [BitVec.and_append, BitVec.and_append, BitVec.and_zero, show (0xF#4) = BitVec.allOnes 4 from rfl,
    show (0xFF#8) = BitVec.allOnes 8 from rfl, BitVec.and_allOnes, BitVec.and_allOnes]

theorem encodeXYN_and_family (f : BitVec 4) (x y : RegNum) (n : BitVec 4) :
    encodeXYN f x y n &&& 0xF000 = f ++ 0#4 ++ 0#4 ++ 0#4 := by
  show (f ++ nibbleBits x ++ nibbleBits y ++ n) &&& (0xF#4 ++ 0#4 ++ 0#4 ++ 0#4) = (_ : BitVec (4 + 4 + 4 + 4))
  rw [BitVec.and_append, BitVec.and_append, BitVec.and_append, BitVec.and_zero, BitVec.and_zero, BitVec.and_zero,
    show (0xF#4) = BitVec.allOnes 4 from rfl, BitVec.and_allOnes]

theorem encodeXYN_and_low_nibble (f : BitVec 4) (x y : RegNum) (n : BitVec 4) :
    encodeXYN f x y n &&& 0xF00F = f ++ 0#4 ++ 0#4 ++ n := by
  show (f ++ nibbleBits x ++ nibbleBits y ++ n) &&& (0xF#4 ++ 0#4 ++ 0#4 ++ 0xF#4) = (_ : BitVec (4 + 4 + 4 + 4))
  rw [BitVec.and_append, BitVec.and_append, BitVec.and_append, BitVec.and_zero, BitVec.and_zero,
    show (0xF#4) = BitVec.allOnes 4 from rfl, BitVec.and_allOnes, BitVec.and_allOnes]

/-! ## Words and bytes -/

/-- A word is the word of its two bytes (R64). -/
theorem wordOfBytes_bytesOfWord (w : Word) : wordOfBytes (bytesOfWord w).1 (bytesOfWord w).2 = w := by
  apply BitVec.eq_of_toNat_eq
  show ((w.extractLsb' 8 8) ++ (w.extractLsb' 0 8)).toNat = _
  rw [BitVec.toNat_append, ← Nat.shiftLeft_add_eq_or_of_lt (BitVec.isLt _), Nat.shiftLeft_eq,
    BitVec.extractLsb'_toNat, BitVec.extractLsb'_toNat]
  have := w.isLt
  simp only [Nat.shiftRight_eq_div_pow]
  omega

/-- The value of a fetched word (R63). -/
theorem wordOfBytes_toNat (a b : Byte) : (wordOfBytes a b).toNat = a.toNat * 256 + b.toNat := by
  show (a ++ b).toNat = _
  rw [BitVec.toNat_append, ← Nat.shiftLeft_add_eq_or_of_lt b.isLt, Nat.shiftLeft_eq]

/-- Sixteen bits of a word's number are the word. -/
theorem tableWord_toNat (w : Word) : tableWord 16 w.toNat = w := by
  apply BitVec.eq_of_toNat_eq
  have := w.isLt
  simp [tableWord]; omega

end Sys2Proof
end

