-- ==== Sys2Proof/Laws/Memory.lean ====
section
/-! SUPPORT. Laws/Memory.lean: reading after writing, and that every memory operation keeps the canonical form;
canonical memories that read alike are equal. -/

namespace Sys2Proof.Machine.Memory

/-! ## Reading after inserting and erasing -/

theorem lookup_insert (m : Memory) (a : Nat) (v : Byte) (b : Nat) :
    (m.insert a v).lookup b = if b = a then some v else m.lookup b := by
  induction m with
  | nil => simp [insert, lookup]
  | cons c m ih =>
    obtain ⟨k, u⟩ := c
    by_cases hlt : a < k
    · simp [insert, hlt, lookup]
    · by_cases heq : a = k
      · subst heq
        simp only [insert, lt_irrefl, if_false, if_true, lookup]
        split <;> rfl
      · simp only [insert, hlt, heq, if_false, lookup, ih]
        by_cases hb : b = k
        · simp [hb, show k ≠ a from fun e => heq e.symm]
        · simp [hb]

theorem lookup_erase_of_ne (m : Memory) {a b : Nat} (h : b ≠ a) : (m.erase a).lookup b = m.lookup b := by
  induction m with
  | nil => rfl
  | cons c m ih =>
    obtain ⟨k, u⟩ := c
    by_cases hk : a = k
    · subst hk
      simp [erase, lookup, h]
    · simp [erase, lookup, hk, ih]

/-- What a memory lists at an address is one of its entries. -/
theorem mem_of_lookup {m : Memory} {a : Nat} {v : Byte} (h : m.lookup a = some v) : (a, v) ∈ m := by
  induction m with
  | nil => simp [lookup] at h
  | cons c m ih =>
    obtain ⟨k, u⟩ := c
    by_cases hk : a = k
    · simp_all [lookup]
    · simp [lookup, hk] at h
      exact List.mem_cons_of_mem _ (ih h)

/-- In a rising memory each entry is what is listed at its address. -/
theorem lookup_of_mem {m : Memory} (hm : m.Pairwise fun c d => c.1 < d.1) {a : Nat} {v : Byte}
    (h : (a, v) ∈ m) : m.lookup a = some v := by
  induction m with
  | nil => simp at h
  | cons c m ih =>
    obtain ⟨k, u⟩ := c
    obtain ⟨hhead, htail⟩ := List.pairwise_cons.mp hm
    rcases List.mem_cons.mp h with heq | hin
    · cases heq
      simp [lookup]
    · have := hhead _ hin
      simp only [lookup, if_neg (show a ≠ k by simp at this; omega)]
      exact ih htail hin

theorem lookup_eq_none {m : Memory} {a : Nat} (h : ∀ c ∈ m, c.1 ≠ a) : m.lookup a = none := by
  cases hl : m.lookup a with
  | none => rfl
  | some v => exact absurd rfl (h _ (mem_of_lookup hl))

theorem lookup_erase_self {m : Memory} (hm : m.Pairwise fun c d => c.1 < d.1) (a : Nat) :
    (m.erase a).lookup a = none := by
  induction m with
  | nil => rfl
  | cons c m ih =>
    obtain ⟨k, u⟩ := c
    obtain ⟨hhead, htail⟩ := List.pairwise_cons.mp hm
    by_cases hk : a = k
    · subst hk
      simp only [erase, if_true]
      exact lookup_eq_none fun c hc => by have := hhead c hc; simp at this; omega
    · simp [erase, lookup, hk, ih htail]

/-! ## The canonical form is kept -/

theorem mem_erase {m : Memory} {a : Nat} {c : Host.Cell} (h : c ∈ m.erase a) : c ∈ m := by
  induction m with
  | nil => exact h
  | cons d m ih =>
    obtain ⟨k, u⟩ := d
    by_cases hk : a = k
    · simp only [erase, hk, if_true] at h
      exact List.mem_cons_of_mem _ h
    · simp only [erase, hk, if_false, List.mem_cons] at h
      exact h.elim (fun e => e ▸ List.mem_cons_self) fun e => List.mem_cons_of_mem _ (ih e)

theorem erase_rising {m : Memory} (hm : m.Pairwise fun c d => c.1 < d.1) (a : Nat) :
    (m.erase a).Pairwise fun c d => c.1 < d.1 := by
  induction m with
  | nil => exact hm
  | cons d m ih =>
    obtain ⟨k, u⟩ := d
    obtain ⟨hhead, htail⟩ := List.pairwise_cons.mp hm
    by_cases hk : a = k
    · simpa [erase, hk] using htail
    · simp only [erase, hk, if_false]
      exact List.pairwise_cons.mpr ⟨fun c hc => hhead c (mem_erase hc), ih htail⟩

theorem mem_insert {m : Memory} {a : Nat} {v : Byte} {c : Host.Cell} (h : c ∈ m.insert a v) :
    c = (a, v) ∨ c ∈ m := by
  induction m with
  | nil => simpa [insert] using h
  | cons d m ih =>
    obtain ⟨k, u⟩ := d
    by_cases hlt : a < k
    · simpa [insert, hlt] using h
    · by_cases heq : a = k
      · simp only [insert, heq, lt_irrefl, if_false, if_true, List.mem_cons] at h ⊢
        tauto
      · simp only [insert, hlt, heq, if_false, List.mem_cons] at h ⊢
        rcases h with h | h
        · exact .inr (.inl h)
        · exact (ih h).imp id .inr

theorem insert_rising {m : Memory} (hm : m.Pairwise fun c d => c.1 < d.1) (a : Nat) (v : Byte) :
    (m.insert a v).Pairwise fun c d => c.1 < d.1 := by
  induction m with
  | nil => simp [insert]
  | cons d m ih =>
    obtain ⟨k, u⟩ := d
    obtain ⟨hhead, htail⟩ := List.pairwise_cons.mp hm
    by_cases hlt : a < k
    · simp only [insert, hlt, if_true]
      refine List.pairwise_cons.mpr ⟨fun c hc => ?_, hm⟩
      rcases List.mem_cons.mp hc with rfl | hc
      · exact hlt
      · exact hlt.trans (hhead c hc)
    · by_cases heq : a = k
      · subst heq
        simp only [insert, lt_irrefl, if_false, if_true]
        exact List.pairwise_cons.mpr ⟨hhead, htail⟩
      · simp only [insert, hlt, heq, if_false]
        refine List.pairwise_cons.mpr ⟨fun c hc => ?_, ih htail⟩
        rcases mem_insert hc with rfl | hc
        · show k < a
          omega
        · exact hhead c hc

/-- The empty memory, the memory of reset, is canonical. -/
theorem wf_nil : wf [] := by simp [wf]

/-- A write inside main memory keeps the canonical form. -/
theorem write_wf {m : Memory} (hm : m.wf) {a : Nat} (ha : a < Config.memSize) (v : Byte) : (m.write a v).wf := by
  unfold write
  split
  · exact ⟨erase_rising hm.1 a, fun c hc => hm.2 c (mem_erase hc)⟩
  · refine ⟨insert_rising hm.1 a v, fun c hc => ?_⟩
    rcases mem_insert hc with rfl | hc
    · exact ⟨‹_›, ha⟩
    · exact hm.2 c hc

/-! ## Reading after a write -/

/-- A write leaves every other address alone. -/
theorem read_write_of_ne (m : Memory) {a b : Nat} (h : b ≠ a) (v : Byte) : (m.write a v).read b = m.read b := by
  unfold write read
  split
  · rw [lookup_erase_of_ne m h]
  · rw [lookup_insert, if_neg h]

/-- A read after a write to the same address gives the value written. -/
theorem read_write_self {m : Memory} (hm : m.wf) (a : Nat) (v : Byte) : (m.write a v).read a = v := by
  unfold write read
  split
  · rw [lookup_erase_self hm.1, Option.getD_none]
    exact Eq.symm ‹_›
  · rw [lookup_insert, if_pos rfl, Option.getD_some]

theorem read_write {m : Memory} (hm : m.wf) (a b : Nat) (v : Byte) :
    (m.write a v).read b = if b = a then v else m.read b := by
  split
  · subst_vars; exact read_write_self hm _ v
  · exact read_write_of_ne m ‹_› v

/-! ## Several bytes -/

theorem writeBytes_wf {m : Memory} (hm : m.wf) {a : Nat} {vs : List Byte} (h : a + vs.length ≤ Config.memSize) :
    (m.writeBytes a vs).wf := by
  induction vs generalizing m a with
  | nil => exact hm
  | cons v vs ih =>
    simp only [List.length_cons] at h
    exact ih (write_wf hm (by omega) v) (by omega)

theorem read_writeBytes_of_lt (m : Memory) (vs : List Byte) {a b : Nat} (h : b < a) :
    (m.writeBytes a vs).read b = m.read b := by
  induction vs generalizing m a with
  | nil => rfl
  | cons v vs ih => simp only [writeBytes, ih _ (show b < a + 1 by omega), read_write_of_ne m (show b ≠ a by omega)]

theorem read_writeBytes_of_ge (m : Memory) (vs : List Byte) {a b : Nat} (h : a + vs.length ≤ b) :
    (m.writeBytes a vs).read b = m.read b := by
  induction vs generalizing m a with
  | nil => rfl
  | cons v vs ih =>
    simp only [List.length_cons] at h
    simp only [writeBytes, ih _ (show a + 1 + vs.length ≤ b by omega), read_write_of_ne m (show b ≠ a by omega)]

/-- Byte `k` of the bytes written is at `a + k`. -/
theorem read_writeBytes {m : Memory} (hm : m.wf) {a : Nat} {vs : List Byte}
    (h : a + vs.length ≤ Config.memSize) {k : Nat} (hk : k < vs.length) :
    (m.writeBytes a vs).read (a + k) = vs[k] := by
  induction vs generalizing m a k with
  | nil => simp at hk
  | cons v vs ih =>
    simp only [List.length_cons] at h hk
    cases k with
    | zero =>
      simp only [writeBytes, Nat.add_zero, read_writeBytes_of_lt _ vs (show a < a + 1 by omega),
        read_write_self hm, List.getElem_cons_zero]
    | succ k =>
      have := ih (write_wf hm (show a < Config.memSize by omega) v) (show a + 1 + vs.length ≤ Config.memSize by omega)
        (show k < vs.length by omega)
      simpa [writeBytes, Nat.add_assoc, Nat.add_comm 1] using this

/-! ## Building a memory from an image -/

theorem ofImage_wf (image : Nat → Byte) : (ofImage image).wf := by
  constructor
  · unfold ofImage
    rw [List.pairwise_filterMap]
    refine List.Pairwise.imp (fun {a b} hab => ?_) (List.pairwise_lt_range (n := Config.memSize))
    intro c hc d hd
    split at hc <;> simp at hc
    split at hd <;> simp at hd
    subst hc hd
    exact hab
  · intro c hc
    obtain ⟨a, ha, hca⟩ := List.mem_filterMap.mp hc
    split at hca <;> simp at hca
    subst hca
    exact ⟨‹_›, List.mem_range.mp ha⟩

/-- A memory built from an image reads as the image. -/
theorem read_ofImage (image : Nat → Byte) {a : Nat} (ha : a < Config.memSize) : (ofImage image).read a = image a := by
  have hw := ofImage_wf image
  by_cases hb : image a = background a
  · have hnone : (ofImage image).lookup a = none := by
      refine lookup_eq_none fun c hc hca => ?_
      obtain ⟨k, -, hk⟩ := List.mem_filterMap.mp hc
      split at hk <;> simp at hk
      subst hk
      simp at hca
      subst hca
      contradiction
    simp [read, hnone, hb]
  · have hmem : (a, image a) ∈ ofImage image :=
      List.mem_filterMap.mpr ⟨a, List.mem_range.mpr ha, by simp [hb]⟩
    simp [read, lookup_of_mem hw.1 hmem]

/-- An image that reads as unlisted memory does lists nothing. -/
theorem ofImage_background : ofImage background = [] := by
  simp [ofImage]

/-! ## Canonical memories are equal when they read alike -/

/-- Entries of canonical memories that read alike are the same entries. -/
theorem mem_of_read_eq {m m' : Memory} (hm : m.wf) (h : ∀ a, m.read a = m'.read a) {c : Host.Cell} (hc : c ∈ m) :
    c ∈ m' := by
  obtain ⟨a, v⟩ := c
  have hread : m'.read a = v := by rw [← h a]; simp [read, lookup_of_mem hm.1 hc]
  cases hl : m'.lookup a with
  | none =>
    simp [read, hl] at hread
    exact absurd hread.symm (hm.2 _ hc).1
  | some u =>
    simp [read, hl] at hread
    exact hread ▸ mem_of_lookup hl

/-- Equal memories are equal data: two canonical memories that read alike at every address are one list. -/
theorem eq_of_read_eq {m m' : Memory} (hm : m.wf) (hm' : m'.wf) (h : ∀ a, m.read a = m'.read a) : m = m' := by
  refine List.Pairwise.eq_of_mem_iff (r := fun c d => c.1 < d.1) hm.1 hm'.1 fun c => ?_
  exact ⟨mem_of_read_eq hm h, mem_of_read_eq hm' fun a => (h a).symm⟩

end Sys2Proof.Machine.Memory
end

