-- ==== Sys2Proof/Laws/State.lean ====
section
/-! SUPPORT. Laws/State.lean: one lemma per field and per view of the state for each update, true by `rfl`, so that
no later proof unfolds a record update; then the value each update writes. -/

namespace Sys2Proof.Machine.State

variable (s : State)

/-! ### `setReg` -/

@[simp] theorem setReg_I (x : RegNum) (v : Byte) : (s.setReg x v).I = s.I := rfl
@[simp] theorem setReg_pc (x : RegNum) (v : Byte) : (s.setReg x v).pc = s.pc := rfl
@[simp] theorem setReg_stack (x : RegNum) (v : Byte) : (s.setReg x v).stack = s.stack := rfl
@[simp] theorem setReg_sp (x : RegNum) (v : Byte) : (s.setReg x v).sp = s.sp := rfl
@[simp] theorem setReg_DT (x : RegNum) (v : Byte) : (s.setReg x v).DT = s.DT := rfl
@[simp] theorem setReg_ST (x : RegNum) (v : Byte) : (s.setReg x v).ST = s.ST := rfl
@[simp] theorem setReg_memory (x : RegNum) (v : Byte) : (s.setReg x v).memory = s.memory := rfl
@[simp] theorem setReg_fb (x : RegNum) (v : Byte) : (s.setReg x v).fb = s.fb := rfl
@[simp] theorem setReg_drawFlag (x : RegNum) (v : Byte) : (s.setReg x v).drawFlag = s.drawFlag := rfl
@[simp] theorem setReg_FAULT (x : RegNum) (v : Byte) : (s.setReg x v).FAULT = s.FAULT := rfl
@[simp] theorem setReg_CAUSE (x : RegNum) (v : Byte) : (s.setReg x v).CAUSE = s.CAUSE := rfl
@[simp] theorem setReg_FINFO (x : RegNum) (v : Byte) : (s.setReg x v).FINFO = s.FINFO := rfl
@[simp] theorem setReg_out (x : RegNum) (v : Byte) : (s.setReg x v).out = s.out := rfl
@[simp] theorem setReg_inputs (x : RegNum) (v : Byte) : (s.setReg x v).inputs = s.inputs := rfl
@[simp] theorem setReg_cycleNo (x : RegNum) (v : Byte) : (s.setReg x v).cycleNo = s.cycleNo := rfl
@[simp] theorem setReg_readByte (x : RegNum) (v : Byte) (a : Nat) : (s.setReg x v).readByte a = s.readByte a := rfl
@[simp] theorem setReg_pixel (x : RegNum) (v : Byte) (p : Nat) : (s.setReg x v).pixel p = s.pixel p := rfl
@[simp] theorem setReg_ea (x : RegNum) (v : Byte) (i : Nat) : (s.setReg x v).ea i = s.ea i := rfl
@[simp] theorem setReg_input (x : RegNum) (v : Byte) : (s.setReg x v).input = s.input := rfl
@[simp] theorem setReg_keyDown (x : RegNum) (v : Byte) (k : Nat) : (s.setReg x v).keyDown k = s.keyDown k := rfl

/-! ### `setFlag` -/

@[simp] theorem setFlag_I (f : Bool) : (s.setFlag f).I = s.I := rfl
@[simp] theorem setFlag_pc (f : Bool) : (s.setFlag f).pc = s.pc := rfl
@[simp] theorem setFlag_stack (f : Bool) : (s.setFlag f).stack = s.stack := rfl
@[simp] theorem setFlag_sp (f : Bool) : (s.setFlag f).sp = s.sp := rfl
@[simp] theorem setFlag_DT (f : Bool) : (s.setFlag f).DT = s.DT := rfl
@[simp] theorem setFlag_ST (f : Bool) : (s.setFlag f).ST = s.ST := rfl
@[simp] theorem setFlag_memory (f : Bool) : (s.setFlag f).memory = s.memory := rfl
@[simp] theorem setFlag_fb (f : Bool) : (s.setFlag f).fb = s.fb := rfl
@[simp] theorem setFlag_drawFlag (f : Bool) : (s.setFlag f).drawFlag = s.drawFlag := rfl
@[simp] theorem setFlag_FAULT (f : Bool) : (s.setFlag f).FAULT = s.FAULT := rfl
@[simp] theorem setFlag_CAUSE (f : Bool) : (s.setFlag f).CAUSE = s.CAUSE := rfl
@[simp] theorem setFlag_FINFO (f : Bool) : (s.setFlag f).FINFO = s.FINFO := rfl
@[simp] theorem setFlag_out (f : Bool) : (s.setFlag f).out = s.out := rfl
@[simp] theorem setFlag_inputs (f : Bool) : (s.setFlag f).inputs = s.inputs := rfl
@[simp] theorem setFlag_cycleNo (f : Bool) : (s.setFlag f).cycleNo = s.cycleNo := rfl
@[simp] theorem setFlag_readByte (f : Bool) (a : Nat) : (s.setFlag f).readByte a = s.readByte a := rfl
@[simp] theorem setFlag_pixel (f : Bool) (p : Nat) : (s.setFlag f).pixel p = s.pixel p := rfl
@[simp] theorem setFlag_ea (f : Bool) (i : Nat) : (s.setFlag f).ea i = s.ea i := rfl
@[simp] theorem setFlag_input (f : Bool) : (s.setFlag f).input = s.input := rfl
@[simp] theorem setFlag_keyDown (f : Bool) (k : Nat) : (s.setFlag f).keyDown k = s.keyDown k := rfl

/-! ### `setResultAndFlag` -/

@[simp] theorem setResultAndFlag_I (x : RegNum) (v : Byte) (f : Bool) : (s.setResultAndFlag x v f).I = s.I := rfl
@[simp] theorem setResultAndFlag_pc (x : RegNum) (v : Byte) (f : Bool) : (s.setResultAndFlag x v f).pc = s.pc := rfl
@[simp] theorem setResultAndFlag_stack (x : RegNum) (v : Byte) (f : Bool) : (s.setResultAndFlag x v f).stack = s.stack := rfl
@[simp] theorem setResultAndFlag_sp (x : RegNum) (v : Byte) (f : Bool) : (s.setResultAndFlag x v f).sp = s.sp := rfl
@[simp] theorem setResultAndFlag_DT (x : RegNum) (v : Byte) (f : Bool) : (s.setResultAndFlag x v f).DT = s.DT := rfl
@[simp] theorem setResultAndFlag_ST (x : RegNum) (v : Byte) (f : Bool) : (s.setResultAndFlag x v f).ST = s.ST := rfl
@[simp] theorem setResultAndFlag_memory (x : RegNum) (v : Byte) (f : Bool) : (s.setResultAndFlag x v f).memory = s.memory := rfl
@[simp] theorem setResultAndFlag_fb (x : RegNum) (v : Byte) (f : Bool) : (s.setResultAndFlag x v f).fb = s.fb := rfl
@[simp] theorem setResultAndFlag_drawFlag (x : RegNum) (v : Byte) (f : Bool) : (s.setResultAndFlag x v f).drawFlag = s.drawFlag := rfl
@[simp] theorem setResultAndFlag_FAULT (x : RegNum) (v : Byte) (f : Bool) : (s.setResultAndFlag x v f).FAULT = s.FAULT := rfl
@[simp] theorem setResultAndFlag_CAUSE (x : RegNum) (v : Byte) (f : Bool) : (s.setResultAndFlag x v f).CAUSE = s.CAUSE := rfl
@[simp] theorem setResultAndFlag_FINFO (x : RegNum) (v : Byte) (f : Bool) : (s.setResultAndFlag x v f).FINFO = s.FINFO := rfl
@[simp] theorem setResultAndFlag_out (x : RegNum) (v : Byte) (f : Bool) : (s.setResultAndFlag x v f).out = s.out := rfl
@[simp] theorem setResultAndFlag_inputs (x : RegNum) (v : Byte) (f : Bool) : (s.setResultAndFlag x v f).inputs = s.inputs := rfl
@[simp] theorem setResultAndFlag_cycleNo (x : RegNum) (v : Byte) (f : Bool) : (s.setResultAndFlag x v f).cycleNo = s.cycleNo := rfl
@[simp] theorem setResultAndFlag_readByte (x : RegNum) (v : Byte) (f : Bool) (a : Nat) : (s.setResultAndFlag x v f).readByte a = s.readByte a := rfl
@[simp] theorem setResultAndFlag_pixel (x : RegNum) (v : Byte) (f : Bool) (p : Nat) : (s.setResultAndFlag x v f).pixel p = s.pixel p := rfl
@[simp] theorem setResultAndFlag_ea (x : RegNum) (v : Byte) (f : Bool) (i : Nat) : (s.setResultAndFlag x v f).ea i = s.ea i := rfl
@[simp] theorem setResultAndFlag_input (x : RegNum) (v : Byte) (f : Bool) : (s.setResultAndFlag x v f).input = s.input := rfl
@[simp] theorem setResultAndFlag_keyDown (x : RegNum) (v : Byte) (f : Bool) (k : Nat) : (s.setResultAndFlag x v f).keyDown k = s.keyDown k := rfl

/-! ### `advance` -/

@[simp] theorem advance_V : (s.advance).V = s.V := rfl
@[simp] theorem advance_I : (s.advance).I = s.I := rfl
@[simp] theorem advance_stack : (s.advance).stack = s.stack := rfl
@[simp] theorem advance_sp : (s.advance).sp = s.sp := rfl
@[simp] theorem advance_DT : (s.advance).DT = s.DT := rfl
@[simp] theorem advance_ST : (s.advance).ST = s.ST := rfl
@[simp] theorem advance_memory : (s.advance).memory = s.memory := rfl
@[simp] theorem advance_fb : (s.advance).fb = s.fb := rfl
@[simp] theorem advance_drawFlag : (s.advance).drawFlag = s.drawFlag := rfl
@[simp] theorem advance_FAULT : (s.advance).FAULT = s.FAULT := rfl
@[simp] theorem advance_CAUSE : (s.advance).CAUSE = s.CAUSE := rfl
@[simp] theorem advance_FINFO : (s.advance).FINFO = s.FINFO := rfl
@[simp] theorem advance_out : (s.advance).out = s.out := rfl
@[simp] theorem advance_inputs : (s.advance).inputs = s.inputs := rfl
@[simp] theorem advance_cycleNo : (s.advance).cycleNo = s.cycleNo := rfl
@[simp] theorem advance_reg (r : RegNum) : (s.advance).reg r = s.reg r := rfl
@[simp] theorem advance_readByte (a : Nat) : (s.advance).readByte a = s.readByte a := rfl
@[simp] theorem advance_pixel (p : Nat) : (s.advance).pixel p = s.pixel p := rfl
@[simp] theorem advance_ea (i : Nat) : (s.advance).ea i = s.ea i := rfl
@[simp] theorem advance_input : (s.advance).input = s.input := rfl
@[simp] theorem advance_keyDown (k : Nat) : (s.advance).keyDown k = s.keyDown k := rfl

/-! ### `jump` -/

@[simp] theorem jump_V (w : Word) : (s.jump w).V = s.V := rfl
@[simp] theorem jump_I (w : Word) : (s.jump w).I = s.I := rfl
@[simp] theorem jump_stack (w : Word) : (s.jump w).stack = s.stack := rfl
@[simp] theorem jump_sp (w : Word) : (s.jump w).sp = s.sp := rfl
@[simp] theorem jump_DT (w : Word) : (s.jump w).DT = s.DT := rfl
@[simp] theorem jump_ST (w : Word) : (s.jump w).ST = s.ST := rfl
@[simp] theorem jump_memory (w : Word) : (s.jump w).memory = s.memory := rfl
@[simp] theorem jump_fb (w : Word) : (s.jump w).fb = s.fb := rfl
@[simp] theorem jump_drawFlag (w : Word) : (s.jump w).drawFlag = s.drawFlag := rfl
@[simp] theorem jump_FAULT (w : Word) : (s.jump w).FAULT = s.FAULT := rfl
@[simp] theorem jump_CAUSE (w : Word) : (s.jump w).CAUSE = s.CAUSE := rfl
@[simp] theorem jump_FINFO (w : Word) : (s.jump w).FINFO = s.FINFO := rfl
@[simp] theorem jump_out (w : Word) : (s.jump w).out = s.out := rfl
@[simp] theorem jump_inputs (w : Word) : (s.jump w).inputs = s.inputs := rfl
@[simp] theorem jump_cycleNo (w : Word) : (s.jump w).cycleNo = s.cycleNo := rfl
@[simp] theorem jump_reg (w : Word) (r : RegNum) : (s.jump w).reg r = s.reg r := rfl
@[simp] theorem jump_readByte (w : Word) (a : Nat) : (s.jump w).readByte a = s.readByte a := rfl
@[simp] theorem jump_pixel (w : Word) (p : Nat) : (s.jump w).pixel p = s.pixel p := rfl
@[simp] theorem jump_ea (w : Word) (i : Nat) : (s.jump w).ea i = s.ea i := rfl
@[simp] theorem jump_input (w : Word) : (s.jump w).input = s.input := rfl
@[simp] theorem jump_keyDown (w : Word) (k : Nat) : (s.jump w).keyDown k = s.keyDown k := rfl

/-! ### `faultEntry` -/

@[simp] theorem faultEntry_V (e : FaultRaise) : (s.faultEntry e).V = s.V := rfl
@[simp] theorem faultEntry_I (e : FaultRaise) : (s.faultEntry e).I = s.I := rfl
@[simp] theorem faultEntry_pc (e : FaultRaise) : (s.faultEntry e).pc = s.pc := rfl
@[simp] theorem faultEntry_stack (e : FaultRaise) : (s.faultEntry e).stack = s.stack := rfl
@[simp] theorem faultEntry_sp (e : FaultRaise) : (s.faultEntry e).sp = s.sp := rfl
@[simp] theorem faultEntry_DT (e : FaultRaise) : (s.faultEntry e).DT = s.DT := rfl
@[simp] theorem faultEntry_ST (e : FaultRaise) : (s.faultEntry e).ST = s.ST := rfl
@[simp] theorem faultEntry_memory (e : FaultRaise) : (s.faultEntry e).memory = s.memory := rfl
@[simp] theorem faultEntry_fb (e : FaultRaise) : (s.faultEntry e).fb = s.fb := rfl
@[simp] theorem faultEntry_drawFlag (e : FaultRaise) : (s.faultEntry e).drawFlag = s.drawFlag := rfl
@[simp] theorem faultEntry_out (e : FaultRaise) : (s.faultEntry e).out = s.out := rfl
@[simp] theorem faultEntry_inputs (e : FaultRaise) : (s.faultEntry e).inputs = s.inputs := rfl
@[simp] theorem faultEntry_cycleNo (e : FaultRaise) : (s.faultEntry e).cycleNo = s.cycleNo := rfl
@[simp] theorem faultEntry_reg (e : FaultRaise) (r : RegNum) : (s.faultEntry e).reg r = s.reg r := rfl
@[simp] theorem faultEntry_readByte (e : FaultRaise) (a : Nat) : (s.faultEntry e).readByte a = s.readByte a := rfl
@[simp] theorem faultEntry_pixel (e : FaultRaise) (p : Nat) : (s.faultEntry e).pixel p = s.pixel p := rfl
@[simp] theorem faultEntry_ea (e : FaultRaise) (i : Nat) : (s.faultEntry e).ea i = s.ea i := rfl
@[simp] theorem faultEntry_input (e : FaultRaise) : (s.faultEntry e).input = s.input := rfl
@[simp] theorem faultEntry_keyDown (e : FaultRaise) (k : Nat) : (s.faultEntry e).keyDown k = s.keyDown k := rfl

/-! ### `block` -/

@[simp] theorem block_V : (s.block).V = s.V := rfl
@[simp] theorem block_I : (s.block).I = s.I := rfl
@[simp] theorem block_pc : (s.block).pc = s.pc := rfl
@[simp] theorem block_stack : (s.block).stack = s.stack := rfl
@[simp] theorem block_sp : (s.block).sp = s.sp := rfl
@[simp] theorem block_DT : (s.block).DT = s.DT := rfl
@[simp] theorem block_ST : (s.block).ST = s.ST := rfl
@[simp] theorem block_memory : (s.block).memory = s.memory := rfl
@[simp] theorem block_fb : (s.block).fb = s.fb := rfl
@[simp] theorem block_drawFlag : (s.block).drawFlag = s.drawFlag := rfl
@[simp] theorem block_FAULT : (s.block).FAULT = s.FAULT := rfl
@[simp] theorem block_CAUSE : (s.block).CAUSE = s.CAUSE := rfl
@[simp] theorem block_FINFO : (s.block).FINFO = s.FINFO := rfl
@[simp] theorem block_inputs : (s.block).inputs = s.inputs := rfl
@[simp] theorem block_cycleNo : (s.block).cycleNo = s.cycleNo := rfl
@[simp] theorem block_reg (r : RegNum) : (s.block).reg r = s.reg r := rfl
@[simp] theorem block_readByte (a : Nat) : (s.block).readByte a = s.readByte a := rfl
@[simp] theorem block_pixel (p : Nat) : (s.block).pixel p = s.pixel p := rfl
@[simp] theorem block_ea (i : Nat) : (s.block).ea i = s.ea i := rfl
@[simp] theorem block_input : (s.block).input = s.input := rfl
@[simp] theorem block_keyDown (k : Nat) : (s.block).keyDown k = s.keyDown k := rfl

/-! ### `beginCycle` -/

@[simp] theorem beginCycle_V : (s.beginCycle).V = s.V := rfl
@[simp] theorem beginCycle_I : (s.beginCycle).I = s.I := rfl
@[simp] theorem beginCycle_pc : (s.beginCycle).pc = s.pc := rfl
@[simp] theorem beginCycle_stack : (s.beginCycle).stack = s.stack := rfl
@[simp] theorem beginCycle_sp : (s.beginCycle).sp = s.sp := rfl
@[simp] theorem beginCycle_DT : (s.beginCycle).DT = s.DT := rfl
@[simp] theorem beginCycle_ST : (s.beginCycle).ST = s.ST := rfl
@[simp] theorem beginCycle_memory : (s.beginCycle).memory = s.memory := rfl
@[simp] theorem beginCycle_fb : (s.beginCycle).fb = s.fb := rfl
@[simp] theorem beginCycle_drawFlag : (s.beginCycle).drawFlag = s.drawFlag := rfl
@[simp] theorem beginCycle_FAULT : (s.beginCycle).FAULT = s.FAULT := rfl
@[simp] theorem beginCycle_CAUSE : (s.beginCycle).CAUSE = s.CAUSE := rfl
@[simp] theorem beginCycle_FINFO : (s.beginCycle).FINFO = s.FINFO := rfl
@[simp] theorem beginCycle_inputs : (s.beginCycle).inputs = s.inputs := rfl
@[simp] theorem beginCycle_cycleNo : (s.beginCycle).cycleNo = s.cycleNo := rfl
@[simp] theorem beginCycle_reg (r : RegNum) : (s.beginCycle).reg r = s.reg r := rfl
@[simp] theorem beginCycle_readByte (a : Nat) : (s.beginCycle).readByte a = s.readByte a := rfl
@[simp] theorem beginCycle_pixel (p : Nat) : (s.beginCycle).pixel p = s.pixel p := rfl
@[simp] theorem beginCycle_ea (i : Nat) : (s.beginCycle).ea i = s.ea i := rfl
@[simp] theorem beginCycle_input : (s.beginCycle).input = s.input := rfl
@[simp] theorem beginCycle_keyDown (k : Nat) : (s.beginCycle).keyDown k = s.keyDown k := rfl

/-! ### `consumeInput` -/

@[simp] theorem consumeInput_V : (s.consumeInput).V = s.V := rfl
@[simp] theorem consumeInput_I : (s.consumeInput).I = s.I := rfl
@[simp] theorem consumeInput_pc : (s.consumeInput).pc = s.pc := rfl
@[simp] theorem consumeInput_stack : (s.consumeInput).stack = s.stack := rfl
@[simp] theorem consumeInput_sp : (s.consumeInput).sp = s.sp := rfl
@[simp] theorem consumeInput_DT : (s.consumeInput).DT = s.DT := rfl
@[simp] theorem consumeInput_ST : (s.consumeInput).ST = s.ST := rfl
@[simp] theorem consumeInput_memory : (s.consumeInput).memory = s.memory := rfl
@[simp] theorem consumeInput_fb : (s.consumeInput).fb = s.fb := rfl
@[simp] theorem consumeInput_drawFlag : (s.consumeInput).drawFlag = s.drawFlag := rfl
@[simp] theorem consumeInput_FAULT : (s.consumeInput).FAULT = s.FAULT := rfl
@[simp] theorem consumeInput_CAUSE : (s.consumeInput).CAUSE = s.CAUSE := rfl
@[simp] theorem consumeInput_FINFO : (s.consumeInput).FINFO = s.FINFO := rfl
@[simp] theorem consumeInput_out : (s.consumeInput).out = s.out := rfl
@[simp] theorem consumeInput_reg (r : RegNum) : (s.consumeInput).reg r = s.reg r := rfl
@[simp] theorem consumeInput_readByte (a : Nat) : (s.consumeInput).readByte a = s.readByte a := rfl
@[simp] theorem consumeInput_pixel (p : Nat) : (s.consumeInput).pixel p = s.pixel p := rfl
@[simp] theorem consumeInput_ea (i : Nat) : (s.consumeInput).ea i = s.ea i := rfl

/-! ### `timerTick` -/

@[simp] theorem timerTick_V : (s.timerTick).V = s.V := rfl
@[simp] theorem timerTick_I : (s.timerTick).I = s.I := rfl
@[simp] theorem timerTick_pc : (s.timerTick).pc = s.pc := rfl
@[simp] theorem timerTick_stack : (s.timerTick).stack = s.stack := rfl
@[simp] theorem timerTick_sp : (s.timerTick).sp = s.sp := rfl
@[simp] theorem timerTick_memory : (s.timerTick).memory = s.memory := rfl
@[simp] theorem timerTick_fb : (s.timerTick).fb = s.fb := rfl
@[simp] theorem timerTick_drawFlag : (s.timerTick).drawFlag = s.drawFlag := rfl
@[simp] theorem timerTick_FAULT : (s.timerTick).FAULT = s.FAULT := rfl
@[simp] theorem timerTick_CAUSE : (s.timerTick).CAUSE = s.CAUSE := rfl
@[simp] theorem timerTick_FINFO : (s.timerTick).FINFO = s.FINFO := rfl
@[simp] theorem timerTick_inputs : (s.timerTick).inputs = s.inputs := rfl
@[simp] theorem timerTick_cycleNo : (s.timerTick).cycleNo = s.cycleNo := rfl
@[simp] theorem timerTick_reg (r : RegNum) : (s.timerTick).reg r = s.reg r := rfl
@[simp] theorem timerTick_readByte (a : Nat) : (s.timerTick).readByte a = s.readByte a := rfl
@[simp] theorem timerTick_pixel (p : Nat) : (s.timerTick).pixel p = s.pixel p := rfl
@[simp] theorem timerTick_ea (i : Nat) : (s.timerTick).ea i = s.ea i := rfl
@[simp] theorem timerTick_input : (s.timerTick).input = s.input := rfl
@[simp] theorem timerTick_keyDown (k : Nat) : (s.timerTick).keyDown k = s.keyDown k := rfl

/-! ### `publishDraw` -/

@[simp] theorem publishDraw_V : (s.publishDraw).V = s.V := rfl
@[simp] theorem publishDraw_I : (s.publishDraw).I = s.I := rfl
@[simp] theorem publishDraw_pc : (s.publishDraw).pc = s.pc := rfl
@[simp] theorem publishDraw_stack : (s.publishDraw).stack = s.stack := rfl
@[simp] theorem publishDraw_sp : (s.publishDraw).sp = s.sp := rfl
@[simp] theorem publishDraw_DT : (s.publishDraw).DT = s.DT := rfl
@[simp] theorem publishDraw_ST : (s.publishDraw).ST = s.ST := rfl
@[simp] theorem publishDraw_memory : (s.publishDraw).memory = s.memory := rfl
@[simp] theorem publishDraw_fb : (s.publishDraw).fb = s.fb := rfl
@[simp] theorem publishDraw_FAULT : (s.publishDraw).FAULT = s.FAULT := rfl
@[simp] theorem publishDraw_CAUSE : (s.publishDraw).CAUSE = s.CAUSE := rfl
@[simp] theorem publishDraw_FINFO : (s.publishDraw).FINFO = s.FINFO := rfl
@[simp] theorem publishDraw_inputs : (s.publishDraw).inputs = s.inputs := rfl
@[simp] theorem publishDraw_cycleNo : (s.publishDraw).cycleNo = s.cycleNo := rfl
@[simp] theorem publishDraw_reg (r : RegNum) : (s.publishDraw).reg r = s.reg r := rfl
@[simp] theorem publishDraw_readByte (a : Nat) : (s.publishDraw).readByte a = s.readByte a := rfl
@[simp] theorem publishDraw_pixel (p : Nat) : (s.publishDraw).pixel p = s.pixel p := rfl
@[simp] theorem publishDraw_ea (i : Nat) : (s.publishDraw).ea i = s.ea i := rfl
@[simp] theorem publishDraw_input : (s.publishDraw).input = s.input := rfl
@[simp] theorem publishDraw_keyDown (k : Nat) : (s.publishDraw).keyDown k = s.keyDown k := rfl

/-! ### `withInputs` -/

@[simp] theorem withInputs_V (l : List CycleInput) : (s.withInputs l).V = s.V := rfl
@[simp] theorem withInputs_I (l : List CycleInput) : (s.withInputs l).I = s.I := rfl
@[simp] theorem withInputs_pc (l : List CycleInput) : (s.withInputs l).pc = s.pc := rfl
@[simp] theorem withInputs_stack (l : List CycleInput) : (s.withInputs l).stack = s.stack := rfl
@[simp] theorem withInputs_sp (l : List CycleInput) : (s.withInputs l).sp = s.sp := rfl
@[simp] theorem withInputs_DT (l : List CycleInput) : (s.withInputs l).DT = s.DT := rfl
@[simp] theorem withInputs_ST (l : List CycleInput) : (s.withInputs l).ST = s.ST := rfl
@[simp] theorem withInputs_memory (l : List CycleInput) : (s.withInputs l).memory = s.memory := rfl
@[simp] theorem withInputs_fb (l : List CycleInput) : (s.withInputs l).fb = s.fb := rfl
@[simp] theorem withInputs_drawFlag (l : List CycleInput) : (s.withInputs l).drawFlag = s.drawFlag := rfl
@[simp] theorem withInputs_FAULT (l : List CycleInput) : (s.withInputs l).FAULT = s.FAULT := rfl
@[simp] theorem withInputs_CAUSE (l : List CycleInput) : (s.withInputs l).CAUSE = s.CAUSE := rfl
@[simp] theorem withInputs_FINFO (l : List CycleInput) : (s.withInputs l).FINFO = s.FINFO := rfl
@[simp] theorem withInputs_out (l : List CycleInput) : (s.withInputs l).out = s.out := rfl
@[simp] theorem withInputs_cycleNo (l : List CycleInput) : (s.withInputs l).cycleNo = s.cycleNo := rfl
@[simp] theorem withInputs_reg (l : List CycleInput) (r : RegNum) : (s.withInputs l).reg r = s.reg r := rfl
@[simp] theorem withInputs_readByte (l : List CycleInput) (a : Nat) : (s.withInputs l).readByte a = s.readByte a := rfl
@[simp] theorem withInputs_pixel (l : List CycleInput) (p : Nat) : (s.withInputs l).pixel p = s.pixel p := rfl
@[simp] theorem withInputs_ea (l : List CycleInput) (i : Nat) : (s.withInputs l).ea i = s.ea i := rfl

/-! ### `unknownInstruction` -/

@[simp] theorem unknownInstruction_V (w : Word) : (s.unknownInstruction w).V = s.V := rfl
@[simp] theorem unknownInstruction_I (w : Word) : (s.unknownInstruction w).I = s.I := rfl
@[simp] theorem unknownInstruction_stack (w : Word) : (s.unknownInstruction w).stack = s.stack := rfl
@[simp] theorem unknownInstruction_sp (w : Word) : (s.unknownInstruction w).sp = s.sp := rfl
@[simp] theorem unknownInstruction_DT (w : Word) : (s.unknownInstruction w).DT = s.DT := rfl
@[simp] theorem unknownInstruction_ST (w : Word) : (s.unknownInstruction w).ST = s.ST := rfl
@[simp] theorem unknownInstruction_memory (w : Word) : (s.unknownInstruction w).memory = s.memory := rfl
@[simp] theorem unknownInstruction_fb (w : Word) : (s.unknownInstruction w).fb = s.fb := rfl
@[simp] theorem unknownInstruction_drawFlag (w : Word) : (s.unknownInstruction w).drawFlag = s.drawFlag := rfl
@[simp] theorem unknownInstruction_FAULT (w : Word) : (s.unknownInstruction w).FAULT = s.FAULT := rfl
@[simp] theorem unknownInstruction_CAUSE (w : Word) : (s.unknownInstruction w).CAUSE = s.CAUSE := rfl
@[simp] theorem unknownInstruction_FINFO (w : Word) : (s.unknownInstruction w).FINFO = s.FINFO := rfl
@[simp] theorem unknownInstruction_inputs (w : Word) : (s.unknownInstruction w).inputs = s.inputs := rfl
@[simp] theorem unknownInstruction_cycleNo (w : Word) : (s.unknownInstruction w).cycleNo = s.cycleNo := rfl
@[simp] theorem unknownInstruction_reg (w : Word) (r : RegNum) : (s.unknownInstruction w).reg r = s.reg r := rfl
@[simp] theorem unknownInstruction_readByte (w : Word) (a : Nat) : (s.unknownInstruction w).readByte a = s.readByte a := rfl
@[simp] theorem unknownInstruction_pixel (w : Word) (p : Nat) : (s.unknownInstruction w).pixel p = s.pixel p := rfl
@[simp] theorem unknownInstruction_ea (w : Word) (i : Nat) : (s.unknownInstruction w).ea i = s.ea i := rfl
@[simp] theorem unknownInstruction_input (w : Word) : (s.unknownInstruction w).input = s.input := rfl
@[simp] theorem unknownInstruction_keyDown (w : Word) (k : Nat) : (s.unknownInstruction w).keyDown k = s.keyDown k := rfl

/-! ### `skipIf` -/

@[simp] theorem skipIf_V (c : Bool) : (s.skipIf c).V = s.V := by cases c <;> rfl
@[simp] theorem skipIf_I (c : Bool) : (s.skipIf c).I = s.I := by cases c <;> rfl
@[simp] theorem skipIf_stack (c : Bool) : (s.skipIf c).stack = s.stack := by cases c <;> rfl
@[simp] theorem skipIf_sp (c : Bool) : (s.skipIf c).sp = s.sp := by cases c <;> rfl
@[simp] theorem skipIf_DT (c : Bool) : (s.skipIf c).DT = s.DT := by cases c <;> rfl
@[simp] theorem skipIf_ST (c : Bool) : (s.skipIf c).ST = s.ST := by cases c <;> rfl
@[simp] theorem skipIf_memory (c : Bool) : (s.skipIf c).memory = s.memory := by cases c <;> rfl
@[simp] theorem skipIf_fb (c : Bool) : (s.skipIf c).fb = s.fb := by cases c <;> rfl
@[simp] theorem skipIf_drawFlag (c : Bool) : (s.skipIf c).drawFlag = s.drawFlag := by cases c <;> rfl
@[simp] theorem skipIf_FAULT (c : Bool) : (s.skipIf c).FAULT = s.FAULT := by cases c <;> rfl
@[simp] theorem skipIf_CAUSE (c : Bool) : (s.skipIf c).CAUSE = s.CAUSE := by cases c <;> rfl
@[simp] theorem skipIf_FINFO (c : Bool) : (s.skipIf c).FINFO = s.FINFO := by cases c <;> rfl
@[simp] theorem skipIf_out (c : Bool) : (s.skipIf c).out = s.out := by cases c <;> rfl
@[simp] theorem skipIf_inputs (c : Bool) : (s.skipIf c).inputs = s.inputs := by cases c <;> rfl
@[simp] theorem skipIf_cycleNo (c : Bool) : (s.skipIf c).cycleNo = s.cycleNo := by cases c <;> rfl
@[simp] theorem skipIf_reg (c : Bool) (r : RegNum) : (s.skipIf c).reg r = s.reg r := by cases c <;> rfl
@[simp] theorem skipIf_readByte (c : Bool) (a : Nat) : (s.skipIf c).readByte a = s.readByte a := by cases c <;> rfl
@[simp] theorem skipIf_pixel (c : Bool) (p : Nat) : (s.skipIf c).pixel p = s.pixel p := by cases c <;> rfl
@[simp] theorem skipIf_ea (c : Bool) (i : Nat) : (s.skipIf c).ea i = s.ea i := by cases c <;> rfl
@[simp] theorem skipIf_input (c : Bool) : (s.skipIf c).input = s.input := by cases c <;> rfl
@[simp] theorem skipIf_keyDown (c : Bool) (k : Nat) : (s.skipIf c).keyDown k = s.keyDown k := by cases c <;> rfl

/-! ### What each update writes -/

@[simp] theorem advance_pc : s.advance.pc = s.pc + 2 := rfl
@[simp] theorem jump_pc (w : Word) : (s.jump w).pc = w := rfl
@[simp] theorem unknownInstruction_pc (w : Word) : (s.unknownInstruction w).pc = s.pc + 2 := rfl
theorem skipIf_pc (c : Bool) : (s.skipIf c).pc = if c then s.pc + 4 else s.pc + 2 := by cases c <;> rfl
@[simp] theorem faultEntry_FAULT (e : FaultRaise) : (s.faultEntry e).FAULT = true := rfl
@[simp] theorem faultEntry_CAUSE (e : FaultRaise) : (s.faultEntry e).CAUSE = e.kind.code := rfl
@[simp] theorem faultEntry_FINFO (e : FaultRaise) : (s.faultEntry e).FINFO = BitVec.ofNat 17 e.info := rfl
@[simp] theorem beginCycle_out : s.beginCycle.out = Outputs.idle := rfl
@[simp] theorem block_out : s.block.out = { s.out with blocked := true } := rfl
@[simp] theorem timerTick_DT : s.timerTick.DT = tickDown s.DT := rfl
@[simp] theorem timerTick_ST : s.timerTick.ST = tickDown s.ST := rfl
@[simp] theorem timerTick_out : s.timerTick.out = { s.out with beep := s.ST == 1 } := rfl
@[simp] theorem publishDraw_drawFlag : s.publishDraw.drawFlag = false := rfl
@[simp] theorem publishDraw_out : s.publishDraw.out = { s.out with drawReq := s.drawFlag } := rfl
@[simp] theorem unknownInstruction_out (w : Word) :
    (s.unknownInstruction w).out = { s.out with unkValid := true, unkInstr := w } := rfl
@[simp] theorem withInputs_inputs (l : List CycleInput) : (s.withInputs l).inputs = l := rfl
@[simp] theorem withInputs_input (c : CycleInput) (l : List CycleInput) : (s.withInputs (c :: l)).input = c := rfl
@[simp] theorem consumeInput_inputs : s.consumeInput.inputs = s.inputs.tail := rfl
@[simp] theorem consumeInput_cycleNo : s.consumeInput.cycleNo = s.cycleNo + 1 := rfl

/-- Reading a register after a write (R9, R21). -/
theorem reg_setReg (x r : RegNum) (v : Byte) : (s.setReg x v).reg r = if r = x then v else s.reg r := by
  simp only [reg, setReg, Vector.getElem_set, Fin.ext_iff, eq_comm]

@[simp] theorem reg_setReg_self (x : RegNum) (v : Byte) : (s.setReg x v).reg x = v := by simp [reg_setReg]

theorem reg_setReg_of_ne {x r : RegNum} (v : Byte) (h : r ≠ x) : (s.setReg x v).reg r = s.reg r := by
  simp [reg_setReg, h]

/-- The flag is what remains in `V[0xF]`, whatever the destination (R23). -/
@[simp] theorem reg_setResultAndFlag_flag (x : RegNum) (v : Byte) (f : Bool) :
    (s.setResultAndFlag x v f).reg 0xF = Byte.ofBool f := by simp [setResultAndFlag, setFlag]

theorem reg_setResultAndFlag_result {x : RegNum} (v : Byte) (f : Bool) (h : x ≠ 0xF) :
    (s.setResultAndFlag x v f).reg x = v := by
  simp [setResultAndFlag, setFlag, reg_setReg, h]

theorem reg_setResultAndFlag_other {x r : RegNum} (v : Byte) (f : Bool) (hx : r ≠ x) (hf : r ≠ 0xF) :
    (s.setResultAndFlag x v f).reg r = s.reg r := by
  simp [setResultAndFlag, setFlag, reg_setReg, hx, hf]

/-- Two states with the same register contents have the same register file. -/
theorem V_ext {s t : State} (h : ∀ r : RegNum, t.reg r = s.reg r) : t.V = s.V := by
  refine Vector.ext fun i hi => ?_
  exact h ⟨i, hi⟩

end Sys2Proof.Machine.State
end

