-- ==== Sys2Proof/Laws/Ops.lean ====
section
/-! SUPPORT. Laws/Ops.lean: what each shared operation can answer, once; callers cite these instead of unfolding. -/

namespace Sys2Proof.Machine

/-! ## Raising and committing -/

theorem bind_eq_ok {ε α β : Type} {x : Except ε α} {f : α → Except ε β} {b : β} :
    (x >>= f) = .ok b ↔ ∃ a, x = .ok a ∧ f a = .ok b := by
  cases x <;> simp [bind, Except.bind]

theorem bind_eq_error {ε α β : Type} {x : Except ε α} {f : α → Except ε β} {e : ε} :
    (x >>= f) = .error e ↔ x = .error e ∨ ∃ a, x = .ok a ∧ f a = .error e := by
  cases x <;> simp [bind, Except.bind]

theorem ok_bind {ε α β : Type} (a : α) (f : α → Except ε β) : ((Except.ok a : Except ε α) >>= f) = f a := rfl

theorem error_bind {ε α β : Type} (e : ε) (f : α → Except ε β) : ((Except.error e : Except ε α) >>= f) = .error e := rfl

namespace State

@[simp] theorem commit_ok (s t : State) : s.commit (.ok t) = .next t := rfl

@[simp] theorem commit_error (s : State) (e : FaultRaise) : s.commit (.error e) = .next (s.faultEntry e) := rfl

/-- An instruction that commits ends in its effect, or in fault entry on the state before it (R231, R240). -/
theorem commit_eq_next {s t : State} {r : Except FaultRaise State} (h : s.commit r = .next t) :
    r = .ok t ∨ ∃ e, r = .error e ∧ t = s.faultEntry e := by
  cases r with
  | ok u => simp at h; exact .inl (by rw [h])
  | error e => simp at h; exact .inr ⟨e, rfl, h.symm⟩

/-- A commit always has a next state. -/
theorem commit_next (s : State) (r : Except FaultRaise State) : ∃ t, s.commit r = .next t := by
  cases r
  · exact ⟨_, commit_error ..⟩
  · exact ⟨_, commit_ok ..⟩

/-! ## Main memory -/

theorem memRead_ok (s : State) {a : Nat} (h : a ≤ 0xFFF) : s.memRead a = .ok (s.readByte a) := by
  simp [memRead, Nat.not_lt.mpr h]

theorem memRead_error (s : State) {a : Nat} (h : 0xFFF < a) : s.memRead a = .error ⟨.memoryFault, a⟩ := by
  simp [memRead, h]

/-- Everything a read can answer (R62). -/
theorem memRead_cases (s : State) (a : Nat) :
    (a ≤ 0xFFF ∧ s.memRead a = .ok (s.readByte a)) ∨ (0xFFF < a ∧ s.memRead a = .error ⟨.memoryFault, a⟩) :=
  (Nat.lt_or_ge 0xFFF a).symm.imp (fun h => ⟨h, memRead_ok s h⟩) fun h => ⟨h, memRead_error s h⟩

theorem memWrite_ok (s : State) {a : Nat} (h : a ≤ 0xFFF) (v : Byte) :
    s.memWrite a v = .ok { s with memory := s.memory.write a v } := by
  simp [memWrite, Nat.not_lt.mpr h]

theorem memWrite_error (s : State) {a : Nat} (h : 0xFFF < a) (v : Byte) :
    s.memWrite a v = .error ⟨.memoryFault, a⟩ := by
  simp [memWrite, h]

/-- Everything a write can answer (R62). -/
theorem memWrite_cases (s : State) (a : Nat) (v : Byte) :
    (a ≤ 0xFFF ∧ s.memWrite a v = .ok { s with memory := s.memory.write a v }) ∨
    (0xFFF < a ∧ s.memWrite a v = .error ⟨.memoryFault, a⟩) :=
  (Nat.lt_or_ge 0xFFF a).symm.imp (fun h => ⟨h, memWrite_ok s h v⟩) fun h => ⟨h, memWrite_error s h v⟩

/-! ## Call stack -/

/-- Everything a push can answer (R25). -/
theorem push_cases (s : State) (v : Word) :
    (∃ h : s.sp.val < 16, s.push v =
      .ok { s with stack := s.stack.set s.sp.val v, sp := ⟨s.sp.val + 1, by omega⟩ }) ∨
    (s.sp.val = 16 ∧ s.push v = .error ⟨.stackOverflow, s.pc.toNat⟩) := by
  by_cases h : s.sp.val < 16
  · exact .inl ⟨h, by simp [push, h]⟩
  · exact .inr ⟨by omega, by simp [push, h]⟩

/-- Everything a pop can answer (R25). -/
theorem pop_cases (s : State) :
    (∃ h : 0 < s.sp.val, s.pop =
      .ok (s.stack[s.sp.val - 1], { s with sp := ⟨s.sp.val - 1, by omega⟩ })) ∨
    (s.sp.val = 0 ∧ s.pop = .error ⟨.stackUnderflow, s.pc.toNat⟩) := by
  by_cases h : s.sp.val = 0
  · exact .inr ⟨h, by simp [pop, h]⟩
  · exact .inl ⟨by omega, by simp [pop, h]⟩

/-! ## Keys -/

/-- The key found is pressed, is one of the sixteen, and no lower key is pressed (R202). -/
theorem firstKey_eq_some {s : State} {k : Nat} (h : s.firstKey = some k) :
    k < 16 ∧ s.keyDown k = true ∧ ∀ j < k, s.keyDown j = false := by
  obtain ⟨hdown, hrange, hlow⟩ := List.find?_range_eq_some.mp h
  exact ⟨List.mem_range.mp hrange, hdown, fun j hj => by simpa using hlow j hj⟩

/-- No key is found exactly when no key is down (R202). -/
theorem firstKey_eq_none {s : State} : s.firstKey = none ↔ ∀ k < 16, s.keyDown k = false := by
  simp [firstKey]

end State

/-! ## Key index -/

/-- Everything the key-index operand can answer (R200). -/
theorem keyIndex_cases (v : Byte) :
    (v.toNat ≤ 15 ∧ keyIndex v = .ok v.toNat) ∨ (15 < v.toNat ∧ keyIndex v = .error ⟨.keyIndexFault, v.toNat⟩) := by
  by_cases h : v.toNat > 15
  · exact .inr ⟨h, by simp [keyIndex, h]⟩
  · exact .inl ⟨by omega, by simp [keyIndex, h]⟩

/-! ## Framebuffer -/

theorem fbRead_ok (fb : Framebuffer) {p : Nat} (h : p ≤ 2047) : fbRead fb p = .ok (pixelOf fb p) := by
  simp [fbRead, Nat.not_lt.mpr h]

theorem fbRead_error (fb : Framebuffer) {p : Nat} (h : 2047 < p) : fbRead fb p = .error ⟨.framebufferFault, p⟩ := by
  simp [fbRead, h]

theorem fbWrite_ok (fb : Framebuffer) {p : Nat} (h : p ≤ 2047) (b : Bool) : fbWrite fb p b = .ok (setPixel fb p b) := by
  simp [fbWrite, Nat.not_lt.mpr h]

/-- There is no pixel outside 0 to 2047. -/
theorem pixelOf_of_ge (fb : Framebuffer) {p : Nat} (h : 2047 < p) : pixelOf fb p = false := by
  have : 32 ≤ p / 64 := by omega
  simp [pixelOf, this]

/-- Reading a pixel after setting one (R31). -/
theorem pixelOf_setPixel (fb : Framebuffer) {p : Nat} (h : p ≤ 2047) (b : Bool) (q : Nat) :
    pixelOf (setPixel fb p b) q = if q = p then b else pixelOf fb q := by
  have hrow : p / 64 < 32 := by omega
  by_cases hsame : pixelOf fb p = b
  · by_cases hq : q = p
    · simp [setPixel, hsame, hq]
    · simp [setPixel, hsame, hq]
  · simp only [setPixel, hsame, if_false]
    by_cases hr : q / 64 = p / 64
    · have hcol : q = p ↔ q % 64 = p % 64 := by omega
      have hb : b = !pixelOf fb p := by cases b <;> simpa using hsame
      simp only [pixelOf, hr, Vector.getElem?_setIfInBounds_self, hrow, if_true, Option.getD_some,
        BitVec.getLsbD_xor, BitVec.getLsbD_twoPow, hcol, hb]
      by_cases hc : q % 64 = p % 64
      · simp [hc, show p % 64 < 64 by omega]
      · have hc' : ¬ p % 64 = q % 64 := fun e => hc e.symm
        simp [hc, hc']
    · have hq : q ≠ p := fun e => hr (by rw [e])
      simp only [pixelOf, hq, if_false]
      rw [Vector.getElem?_setIfInBounds_ne (fun e => hr e.symm)]

@[simp] theorem pixelOf_blank (p : Nat) : pixelOf blankFramebuffer p = false := by
  unfold pixelOf blankFramebuffer
  by_cases h : p / 64 < 32 <;> simp [h]

end Sys2Proof.Machine
end

