-- ==== Sys2Proof/Laws/Draw.lean ====
section
/-! SUPPORT. Laws/Draw.lean: what the loops of `Dxyn` answer: a row and a whole sprite as the XOR of what they
cover, by induction over columns and rows. -/

namespace Sys2Proof.Machine

/-- Pixels of one row are distinct, and rows do not share pixels (R71). -/
theorem pixelIndex_inj {vx vy : Byte} {r r' c c' : Nat} (hc : c < 8) (hc' : c' < 8)
    (h : pixelIndex vx vy r c = pixelIndex vx vy r' c') : r = r' ∧ c = c' := by
  unfold pixelIndex at h; omega

theorem mem_spriteColumns {c : Nat} : c ∈ spriteColumns ↔ c < 8 := by
  simp [spriteColumns]; omega

/-- Some column of `cs` with a set bit of row `r` falls on pixel `p`. -/
def rowCovers (vx vy : Byte) (r : Nat) (b : Byte) (cs : List Nat) (p : Nat) : Prop :=
  ∃ c ∈ cs, spriteBit b c = true ∧ pixelIndex vx vy r c = p

/-- `d'` is `d` with the pixels of `P` XORed, and its hit says whether one of them was set (R185, R189). -/
structure Xors (d d' : Canvas) (P : Nat → Prop) : Prop where
  flipped : ∀ p, P p → pixelOf d'.fb p = !pixelOf d.fb p
  kept : ∀ p, ¬ P p → pixelOf d'.fb p = pixelOf d.fb p
  hit : d'.hit = true ↔ d.hit = true ∨ ∃ p, P p ∧ pixelOf d.fb p = true

/-- XORing nothing changes nothing. -/
theorem Xors.none (d : Canvas) {P : Nat → Prop} (h : ∀ p, ¬ P p) : Xors d d P :=
  ⟨fun p hp => absurd hp (h p), fun _ _ => rfl, by simp [h]⟩

/-- XORing two sets that share no pixel, one after the other. -/
theorem Xors.trans {d e f : Canvas} {P Q R : Nat → Prop} (h : Xors d e P) (k : Xors e f Q)
    (hdisj : ∀ p, P p → ¬ Q p) (hR : ∀ p, R p ↔ P p ∨ Q p) : Xors d f R where
  flipped p hp := by
    rcases (hR p).mp hp with hP | hQ
    · rw [k.kept p (hdisj p hP), h.flipped p hP]
    · rw [k.flipped p hQ, h.kept p fun hP => hdisj p hP hQ]
  kept p hp := by
    have := (not_congr (hR p)).mp hp
    rw [k.kept p fun hQ => this (.inr hQ), h.kept p fun hP => this (.inl hP)]
  hit := by
    rw [k.hit, h.hit, or_assoc]
    refine or_congr Iff.rfl ⟨?_, ?_⟩
    · rintro (⟨p, hP, hset⟩ | ⟨p, hQ, hset⟩)
      · exact ⟨p, (hR p).mpr (.inl hP), hset⟩
      · exact ⟨p, (hR p).mpr (.inr hQ), by rwa [h.kept p fun hP => hdisj p hP hQ] at hset⟩
    · rintro ⟨p, hp, hset⟩
      rcases (hR p).mp hp with hP | hQ
      · exact .inl ⟨p, hP, hset⟩
      · exact .inr ⟨p, hQ, by rwa [h.kept p fun hP => hdisj p hP hQ]⟩

/-! ## One column -/

/-- A set bit inside the framebuffer XORs its pixel; a clear bit does nothing (R185). -/
theorem drawColumn_ok (vx vy : Byte) (r : Nat) (b : Byte) (d : Canvas) {c : Nat}
    (h : spriteBit b c = true → pixelIndex vx vy r c ≤ 2047) :
    ∃ d', drawColumn vx vy r b d c = .ok d' ∧
      Xors d d' fun p => spriteBit b c = true ∧ pixelIndex vx vy r c = p := by
  by_cases hb : spriteBit b c = true
  · have hp := h hb
    refine ⟨⟨setPixel d.fb (pixelIndex vx vy r c) (!pixelOf d.fb (pixelIndex vx vy r c)),
      d.hit || pixelOf d.fb (pixelIndex vx vy r c)⟩, ?_, ?_, ?_, ?_⟩
    · simp only [drawColumn, hb, if_true, fbRead_ok d.fb hp, fbWrite_ok d.fb hp, ok_bind]
    · rintro p ⟨-, rfl⟩
      simp only [pixelOf_setPixel d.fb hp, if_true]
    · intro p hne
      have : p ≠ pixelIndex vx vy r c := fun e => hne ⟨hb, e.symm⟩
      simp only [pixelOf_setPixel d.fb hp, this, if_false]
    · simp [hb]
  · refine ⟨d, by simp only [drawColumn, hb]; rfl, Xors.none d fun p hp => hb hp.1⟩

/-- A set bit outside the framebuffer raises the fault with its index (R188). -/
theorem drawColumn_error (vx vy : Byte) (r : Nat) (b : Byte) (d : Canvas) {c : Nat} (hb : spriteBit b c = true)
    (h : 2047 < pixelIndex vx vy r c) :
    drawColumn vx vy r b d c = .error ⟨.framebufferFault, pixelIndex vx vy r c⟩ := by
  simp only [drawColumn, hb, if_true, fbRead_error d.fb h, error_bind]

/-! ## One row -/

/-- A row whose set bits all fall inside the framebuffer is the XOR of what they cover. -/
theorem drawRow_ok (vx vy : Byte) (r : Nat) (b : Byte) {cs : List Nat} (hcs : cs.Nodup) (h8 : ∀ c ∈ cs, c < 8)
    (d : Canvas) (h : ∀ c ∈ cs, spriteBit b c = true → pixelIndex vx vy r c ≤ 2047) :
    ∃ d', drawRow vx vy r b d cs = .ok d' ∧ Xors d d' (rowCovers vx vy r b cs) := by
  induction cs generalizing d with
  | nil => exact ⟨d, rfl, Xors.none d fun p ⟨c, hc, _⟩ => by simp at hc⟩
  | cons c cs ih =>
    obtain ⟨hc, hcs'⟩ := List.nodup_cons.mp hcs
    obtain ⟨e, he, hX⟩ := drawColumn_ok vx vy r b d (h c List.mem_cons_self)
    obtain ⟨f, hf, hY⟩ := ih hcs' (fun k hk => h8 k (List.mem_cons_of_mem _ hk)) e
      fun k hk => h k (List.mem_cons_of_mem _ hk)
    refine ⟨f, by simp only [drawRow, he, ok_bind, hf], hX.trans hY ?_ ?_⟩
    · rintro p ⟨-, rfl⟩ ⟨k, hk, -, hp⟩
      obtain ⟨-, rfl⟩ := pixelIndex_inj (h8 k (List.mem_cons_of_mem _ hk)) (h8 c List.mem_cons_self) hp
      exact hc hk
    · intro p
      constructor
      · rintro ⟨k, hk, hb, hp⟩
        rcases List.mem_cons.mp hk with rfl | hk
        · exact .inl ⟨hb, hp⟩
        · exact .inr ⟨k, hk, hb, hp⟩
      · rintro (⟨hb, hp⟩ | ⟨k, hk, hb, hp⟩)
        · exact ⟨c, List.mem_cons_self, hb, hp⟩
        · exact ⟨k, List.mem_cons_of_mem _ hk, hb, hp⟩

/-- The first set bit outside the framebuffer is the one reported (R238). -/
theorem drawRow_error (vx vy : Byte) (r : Nat) (b : Byte) {pre post : List Nat} {c : Nat} (d : Canvas)
    (hpre : ∀ k ∈ pre, spriteBit b k = true → pixelIndex vx vy r k ≤ 2047)
    (hb : spriteBit b c = true) (h : 2047 < pixelIndex vx vy r c) :
    drawRow vx vy r b d (pre ++ c :: post) = .error ⟨.framebufferFault, pixelIndex vx vy r c⟩ := by
  induction pre generalizing d with
  | nil => simp only [List.nil_append, drawRow, drawColumn_error vx vy r b d hb h, error_bind]
  | cons k pre ih =>
    obtain ⟨e, he, -⟩ := drawColumn_ok vx vy r b d (hpre k List.mem_cons_self)
    simp only [List.cons_append, drawRow, he, ok_bind]
    exact ih e fun j hj => hpre j (List.mem_cons_of_mem _ hj)

/-! ## The whole sprite -/

/-- Some set bit of a row of `rs` falls on pixel `p`. -/
def rowsCover (s : State) (vx vy : Byte) (rs : List Nat) (p : Nat) : Prop :=
  ∃ r ∈ rs, rowCovers vx vy r (s.readByte (s.ea r)) spriteColumns p

/-- A sprite whose rows are in memory and whose set bits all fall inside the framebuffer is the XOR of what it
covers (R185, R187). -/
theorem drawRows_ok (s : State) (vx vy : Byte) {rs : List Nat} (hrs : rs.Nodup) (d : Canvas)
    (hmem : ∀ r ∈ rs, s.ea r ≤ 0xFFF) (hpix : ∀ p, rowsCover s vx vy rs p → p ≤ 2047) :
    ∃ d', drawRows s vx vy d rs = .ok d' ∧ Xors d d' (rowsCover s vx vy rs) := by
  induction rs generalizing d with
  | nil => exact ⟨d, rfl, Xors.none d fun p ⟨r, hr, _⟩ => by simp at hr⟩
  | cons r rs ih =>
    obtain ⟨hr, hrs'⟩ := List.nodup_cons.mp hrs
    obtain ⟨e, he, hX⟩ := drawRow_ok vx vy r (s.readByte (s.ea r)) (cs := spriteColumns) (by decide)
      (fun c hc => mem_spriteColumns.mp hc) d
      fun c hc hb => hpix _ ⟨r, List.mem_cons_self, c, hc, hb, rfl⟩
    obtain ⟨f, hf, hY⟩ := ih hrs' e (fun k hk => hmem k (List.mem_cons_of_mem _ hk))
      fun p ⟨k, hk, hp⟩ => hpix p ⟨k, List.mem_cons_of_mem _ hk, hp⟩
    refine ⟨f, ?_, hX.trans hY ?_ ?_⟩
    · simp only [drawRows, State.memRead_ok s (hmem r List.mem_cons_self), ok_bind, he, hf]
    · rintro p ⟨c, hc, -, rfl⟩ ⟨k, hk, c', hc', -, hp⟩
      obtain ⟨rfl, -⟩ := pixelIndex_inj (mem_spriteColumns.mp hc') (mem_spriteColumns.mp hc) hp
      exact hr hk
    · intro p
      constructor
      · rintro ⟨k, hk, hp⟩
        rcases List.mem_cons.mp hk with rfl | hk
        · exact .inl hp
        · exact .inr ⟨k, hk, hp⟩
      · rintro (hp | ⟨k, hk, hp⟩)
        · exact ⟨r, List.mem_cons_self, hp⟩
        · exact ⟨k, List.mem_cons_of_mem _ hk, hp⟩

/-- Earlier rows that raise nothing leave the fault of the first row that raises one (R238). -/
theorem drawRows_error (s : State) (vx vy : Byte) {pre post : List Nat} {r : Nat} (d : Canvas) {x : FaultRaise}
    (hpre : pre.Nodup) (hmem : ∀ k ∈ pre, s.ea k ≤ 0xFFF) (hpix : ∀ p, rowsCover s vx vy pre p → p ≤ 2047)
    (hr : ∀ e, drawRows s vx vy e (r :: post) = .error x) :
    drawRows s vx vy d (pre ++ r :: post) = .error x := by
  induction pre generalizing d with
  | nil => exact hr d
  | cons k pre ih =>
    obtain ⟨hk, hpre'⟩ := List.nodup_cons.mp hpre
    obtain ⟨e, he, -⟩ := drawRow_ok vx vy k (s.readByte (s.ea k)) (cs := spriteColumns) (by decide)
      (fun c hc => mem_spriteColumns.mp hc) d
      fun c hc hb => hpix _ ⟨k, List.mem_cons_self, c, hc, hb, rfl⟩
    simp only [List.cons_append, drawRows, State.memRead_ok s (hmem k List.mem_cons_self), ok_bind, he]
    exact ih e hpre' (fun j hj => hmem j (List.mem_cons_of_mem _ hj))
      fun p ⟨j, hj, hp⟩ => hpix p ⟨j, List.mem_cons_of_mem _ hj, hp⟩

/-- A row that raises nothing has every set bit inside the framebuffer (R188). -/
theorem drawRow_ok_range {vx vy : Byte} {r : Nat} {b : Byte} {cs : List Nat} {d d' : Canvas}
    (h : drawRow vx vy r b d cs = .ok d') : ∀ c ∈ cs, spriteBit b c = true → pixelIndex vx vy r c ≤ 2047 := by
  induction cs generalizing d with
  | nil => intro c hc; cases hc
  | cons k cs ih =>
    obtain ⟨e, he, h⟩ := bind_eq_ok.mp h
    intro c hc hb
    rcases List.mem_cons.mp hc with rfl | hc
    · by_contra hlt
      rw [drawColumn_error vx vy r b d hb (by omega)] at he
      cases he
    · exact ih h c hc hb

/-- A draw that raises nothing read its rows from memory and drew inside the framebuffer (R185, R188). -/
theorem drawRows_ok_range {s : State} {vx vy : Byte} {rs : List Nat} {d d' : Canvas}
    (h : drawRows s vx vy d rs = .ok d') :
    (∀ r ∈ rs, s.ea r ≤ 0xFFF) ∧ ∀ p, rowsCover s vx vy rs p → p ≤ 2047 := by
  induction rs generalizing d with
  | nil => exact ⟨fun r hr => (by cases hr), fun p ⟨r, hr, _⟩ => (by cases hr)⟩
  | cons k rs ih =>
    obtain ⟨b, hb, hrest⟩ := bind_eq_ok.mp h
    obtain ⟨e, he, hrows⟩ := bind_eq_ok.mp hrest
    rcases s.memRead_cases (s.ea k) with ⟨hk, hr⟩ | ⟨-, hr⟩ <;> rw [hr] at hb <;> cases hb
    obtain ⟨hmem, hpix⟩ := ih hrows
    refine ⟨fun r hr => ?_, fun p ⟨r, hr, c, hc, hbit, hp⟩ => ?_⟩
    · rcases List.mem_cons.mp hr with rfl | hr
      · exact hk
      · exact hmem r hr
    · rcases List.mem_cons.mp hr with rfl | hr
      · exact hp ▸ drawRow_ok_range he c hc hbit
      · exact hpix p ⟨r, hr, c, hc, hbit, hp⟩

/-- Every fault a draw raises is a memory fault of a row of it or a framebuffer fault at a pixel of it (R185). -/
theorem drawRows_error_cases (s : State) (vx vy : Byte) {rs : List Nat} {d : Canvas} {x : FaultRaise}
    (h : drawRows s vx vy d rs = .error x) :
    (∃ r ∈ rs, 0xFFF < s.ea r ∧ x = ⟨.memoryFault, s.ea r⟩) ∨
    (∃ r ∈ rs, ∃ c < 8, 2047 < pixelIndex vx vy r c ∧ x = ⟨.framebufferFault, pixelIndex vx vy r c⟩) := by
  have hcol : ∀ r b (e : Canvas) (c : Nat) y, drawColumn vx vy r b e c = .error y →
      2047 < pixelIndex vx vy r c ∧ y = ⟨.framebufferFault, pixelIndex vx vy r c⟩ := by
    intro r b e c y hy
    by_cases hp : spriteBit b c = true → pixelIndex vx vy r c ≤ 2047
    · obtain ⟨e', he, -⟩ := drawColumn_ok vx vy r b e hp
      rw [he] at hy; cases hy
    · obtain ⟨hb, hp⟩ := not_forall.mp hp
      rw [drawColumn_error vx vy r b e hb (by omega)] at hy
      exact ⟨by omega, by cases hy; rfl⟩
  have hrow : ∀ r b cs (e : Canvas) y, drawRow vx vy r b e cs = .error y →
      ∃ c ∈ cs, 2047 < pixelIndex vx vy r c ∧ y = ⟨.framebufferFault, pixelIndex vx vy r c⟩ := by
    intro r b cs
    induction cs with
    | nil => intro e y hy; cases hy
    | cons c cs ih =>
      intro e y hy
      rcases bind_eq_error.mp hy with hy | ⟨e', -, hy⟩
      · exact ⟨c, List.mem_cons_self, hcol r b e c y hy⟩
      · obtain ⟨k, hk, hk'⟩ := ih e' y hy
        exact ⟨k, List.mem_cons_of_mem _ hk, hk'⟩
  induction rs generalizing d with
  | nil => cases h
  | cons r rs ih =>
    rcases bind_eq_error.mp h with h | ⟨b, -, h⟩
    · rcases s.memRead_cases (s.ea r) with ⟨-, hr⟩ | ⟨ha, hr⟩
      · rw [hr] at h; cases h
      · rw [hr] at h; cases h
        exact .inl ⟨r, List.mem_cons_self, ha, rfl⟩
    · rcases bind_eq_error.mp h with h | ⟨e, -, h⟩
      · obtain ⟨c, hc, hp, hx⟩ := hrow r b _ d x h
        exact .inr ⟨r, List.mem_cons_self, c, mem_spriteColumns.mp hc, hp, hx⟩
      · rcases ih h with ⟨k, hk, hk'⟩ | ⟨k, hk, hk'⟩
        · exact .inl ⟨k, List.mem_cons_of_mem _ hk, hk'⟩
        · exact .inr ⟨k, List.mem_cons_of_mem _ hk, hk'⟩

end Sys2Proof.Machine
end

