-- ==== Sys2Proof/Laws/Transfer.lean ====
section
/-! SUPPORT. Laws/Transfer.lean: what the loops of `Fx33`, `Fx55`, `Fx65` answer, by induction over their registers. -/

namespace Sys2Proof.Machine

/-! ## The registers of a range -/

theorem mem_regsUpTo {x i : RegNum} : i ∈ regsUpTo x ↔ i.val ≤ x.val := by
  revert x i; decide

theorem regsUpTo_nodup (x : RegNum) : (regsUpTo x).Nodup := by
  revert x; decide

theorem regsUpTo_rising (x : RegNum) : (regsUpTo x).Pairwise (fun i j => i.val < j.val) := by
  revert x; decide

/-! ## Storing registers -/

/-- With every address in memory the registers are stored: each listed register at its address, every other byte
as before, and only memory is changed. -/
theorem storeRegs_ok {l : List RegNum} (hl : l.Nodup) {s : State} (h : ∀ i ∈ l, s.ea i.val ≤ 0xFFF)
    (hw : s.memory.wf) :
    ∃ m : Memory, storeRegs s l = .ok { s with memory := m } ∧ m.wf ∧
      (∀ i ∈ l, m.read (s.ea i.val) = s.reg i) ∧
      (∀ a, (∀ i ∈ l, a ≠ s.ea i.val) → m.read a = s.readByte a) := by
  induction l generalizing s with
  | nil => exact ⟨s.memory, rfl, hw, by simp, fun _ _ => rfl⟩
  | cons j l ih =>
    obtain ⟨hj, hl'⟩ := List.nodup_cons.mp hl
    have ha := h j List.mem_cons_self
    have hw' := Memory.write_wf hw (show s.ea j.val < Config.memSize by simp [Config.memSize]; omega) (s.reg j)
    obtain ⟨m, hm, hmw, hin, hout⟩ := ih (s := { s with memory := s.memory.write (s.ea j.val) (s.reg j) }) hl'
      (fun i hi => h i (List.mem_cons_of_mem _ hi)) hw'
    refine ⟨m, by simp only [storeRegs, State.memWrite_ok s ha, ok_bind, hm], hmw, fun i hi => ?_, fun a ha' => ?_⟩
    · rcases List.mem_cons.mp hi with rfl | hi'
      · refine (hout (s.ea i.val) fun k hk he => hj ?_).trans (Memory.read_write_self hw _ _)
        have : i = k := by
          have he : s.I.toNat + i.val = s.I.toNat + k.val := he
          exact Fin.ext (by omega)
        exact this ▸ hk
      · exact hin i hi'
    · refine (hout a fun i hi => ha' i (List.mem_cons_of_mem _ hi)).trans ?_
      exact Memory.read_write_of_ne _ (ha' j List.mem_cons_self) _

/-- The first address outside memory is the one reported (R238). -/
theorem storeRegs_error {pre post : List RegNum} {i : RegNum} {s : State} (hpre : ∀ j ∈ pre, s.ea j.val ≤ 0xFFF)
    (hi : 0xFFF < s.ea i.val) : storeRegs s (pre ++ i :: post) = .error ⟨.memoryFault, s.ea i.val⟩ := by
  induction pre generalizing s with
  | nil => simp only [List.nil_append, storeRegs, State.memWrite_error s hi, error_bind]
  | cons j pre ih =>
    simp only [List.cons_append, storeRegs, State.memWrite_ok s (hpre j List.mem_cons_self), ok_bind]
    exact ih (s := { s with memory := s.memory.write (s.ea j.val) (s.reg j) })
      (fun k hk => hpre k (List.mem_cons_of_mem _ hk)) hi

/-! ## Loading registers -/

/-- With every address in memory the registers are loaded: each listed register from its address, every other
register as before, and only the register file is changed. -/
theorem loadRegs_ok {l : List RegNum} (hl : l.Nodup) {s : State} (h : ∀ i ∈ l, s.ea i.val ≤ 0xFFF) :
    ∃ V, loadRegs s l = .ok { s with V := V } ∧
      (∀ i ∈ l, ({ s with V := V } : State).reg i = s.readByte (s.ea i.val)) ∧
      (∀ i, i ∉ l → ({ s with V := V } : State).reg i = s.reg i) := by
  induction l generalizing s with
  | nil => exact ⟨s.V, rfl, by simp, fun _ _ => rfl⟩
  | cons j l ih =>
    obtain ⟨hj, hl'⟩ := List.nodup_cons.mp hl
    have ha := h j List.mem_cons_self
    obtain ⟨V, hV, hin, hout⟩ := ih (s := s.setReg j (s.readByte (s.ea j.val))) hl'
      fun i hi => h i (List.mem_cons_of_mem _ hi)
    refine ⟨V, by simp only [loadRegs, State.memRead_ok s ha, ok_bind, hV]; rfl, fun i hi => ?_, fun i hi => ?_⟩
    · rcases List.mem_cons.mp hi with rfl | hi'
      · exact (hout i hj).trans (s.reg_setReg_self i _)
      · exact hin i hi'
    · have hne : i ≠ j := fun e => hi (e ▸ List.mem_cons_self)
      exact (hout i fun hi' => hi (List.mem_cons_of_mem _ hi')).trans (s.reg_setReg_of_ne _ hne)

/-- The first address outside memory is the one reported (R238). -/
theorem loadRegs_error {pre post : List RegNum} {i : RegNum} {s : State} (hpre : ∀ j ∈ pre, s.ea j.val ≤ 0xFFF)
    (hi : 0xFFF < s.ea i.val) : loadRegs s (pre ++ i :: post) = .error ⟨.memoryFault, s.ea i.val⟩ := by
  induction pre generalizing s with
  | nil => simp only [List.nil_append, loadRegs, State.memRead_error s hi, error_bind]
  | cons j pre ih =>
    simp only [List.cons_append, loadRegs, State.memRead_ok s (hpre j List.mem_cons_self), ok_bind]
    exact ih (s := s.setReg j (s.readByte (s.ea j.val))) (fun k hk => hpre k (List.mem_cons_of_mem _ hk)) hi

/-- A range of registers splits at each of its members, the ones before it having smaller numbers. -/
theorem regsUpTo_split_at {x i : RegNum} (h : i.val ≤ x.val) :
    ∃ pre post, regsUpTo x = pre ++ i :: post ∧ ∀ j ∈ pre, j.val < i.val := by
  refine ⟨(regsUpTo x).take i.val, (regsUpTo x).drop (i.val + 1), ?_, ?_⟩ <;> revert x i <;> decide

/-- A range that does not fit splits at its first register outside memory: the one whose address is
`max(I, 0x1000)` (R238). -/
theorem regsUpTo_split {x : RegNum} {s : State} (h : 0xFFF < s.ea x.val) :
    ∃ pre i post, regsUpTo x = pre ++ i :: post ∧ (∀ j ∈ pre, s.ea j.val ≤ 0xFFF) ∧
      s.ea i.val = max s.I.toNat 0x1000 := by
  have hk : 0x1000 - s.I.toNat ≤ x.val := by simp only [State.ea] at h; omega
  obtain ⟨pre, post, hsplit, hpre⟩ := regsUpTo_split_at (x := x) (i := ⟨0x1000 - s.I.toNat, by omega⟩) hk
  refine ⟨pre, _, post, hsplit, fun j hj => ?_, ?_⟩
  · have : j.val < 0x1000 - s.I.toNat := hpre j hj
    simp only [State.ea]; omega
  · simp only [State.ea]; omega

/-! ## Storing the three digits -/

/-- With `I + 2` in memory the three digits are stored and only memory is changed. -/
theorem storeBcd_ok {s : State} (v : Byte) (h : s.I.toNat + 2 ≤ 0xFFF) (hw : s.memory.wf) :
    ∃ m : Memory, storeBcd s v = .ok { s with memory := m } ∧ m.wf ∧
      m.read s.I.toNat = bcdHundreds v ∧ m.read (s.I.toNat + 1) = bcdTens v ∧
      m.read (s.I.toNat + 2) = bcdOnes v ∧
      ∀ a, a < s.I.toNat ∨ s.I.toNat + 2 < a → m.read a = s.readByte a := by
  have hw0 := Memory.write_wf hw (show s.I.toNat < Config.memSize by simp [Config.memSize]; omega) (bcdHundreds v)
  have hw1 := Memory.write_wf hw0 (show s.I.toNat + 1 < Config.memSize by simp [Config.memSize]; omega) (bcdTens v)
  have hw2 := Memory.write_wf hw1 (show s.I.toNat + 2 < Config.memSize by simp [Config.memSize]; omega) (bcdOnes v)
  refine ⟨_, ?_, hw2, ?_, ?_, ?_, fun a ha => ?_⟩
  · simp only [storeBcd, State.ea, Nat.add_zero]
    rw [State.memWrite_ok _ (show s.I.toNat ≤ 0xFFF by omega), ok_bind,
      State.memWrite_ok _ (show s.I.toNat + 1 ≤ 0xFFF by omega), ok_bind,
      State.memWrite_ok _ (show s.I.toNat + 2 ≤ 0xFFF by omega)]
  · rw [Memory.read_write_of_ne _ (by omega), Memory.read_write_of_ne _ (by omega), Memory.read_write_self hw]
  · rw [Memory.read_write_of_ne _ (by omega), Memory.read_write_self hw0]
  · rw [Memory.read_write_self hw1]
  · rw [Memory.read_write_of_ne _ (by omega), Memory.read_write_of_ne _ (by omega),
      Memory.read_write_of_ne _ (by omega)]
    rfl

/-- The first address outside memory is the one reported: `max(I, 0x1000)` (R238). -/
theorem storeBcd_error {s : State} (v : Byte) (h : 0xFFF < s.I.toNat + 2) :
    storeBcd s v = .error ⟨.memoryFault, max s.I.toNat 0x1000⟩ := by
  simp only [storeBcd, State.ea, Nat.add_zero]
  by_cases h0 : 0xFFF < s.I.toNat
  · rw [State.memWrite_error _ h0, error_bind, show max s.I.toNat 0x1000 = s.I.toNat by omega]
  · rw [State.memWrite_ok _ (by omega), ok_bind]
    by_cases h1 : 0xFFF < s.I.toNat + 1
    · rw [State.memWrite_error _ (show 0xFFF < s.I.toNat + 1 from h1), error_bind, show max s.I.toNat 0x1000 = s.I.toNat + 1 by omega]
    · rw [State.memWrite_ok _ (show s.I.toNat + 1 ≤ 0xFFF by omega), ok_bind, State.memWrite_error _ (show 0xFFF < s.I.toNat + 2 from h),
        show max s.I.toNat 0x1000 = s.I.toNat + 2 by omega]

end Sys2Proof.Machine
end

