-- ==== Sys2Proof/Laws/Cycle.lean ====
section
/-! SUPPORT. Laws/Cycle.lean: what a fetch, an instruction, the end of a cycle and a step can answer, once. -/

namespace Sys2Proof.Machine

namespace State

/-! ## Fetch -/

theorem fetch_ok (s : State) (h : s.pc.toNat ≤ 0xFFE) :
    s.fetch = .ok (wordOfBytes (s.readByte s.pc.toNat) (s.readByte (s.pc.toNat + 1))) := by
  simp [fetch, Nat.not_lt.mpr h]

theorem fetch_error (s : State) (h : 0xFFE < s.pc.toNat) : s.fetch = .error ⟨.fetchFault, s.pc.toNat⟩ := by
  simp [fetch, h]

/-- A word is fetched only from inside memory (R63). -/
theorem pc_le_of_fetch {s : State} {w : Word} (h : s.fetch = .ok w) : s.pc.toNat ≤ 0xFFE := by
  by_contra hlt
  rw [fetch_error s (by omega)] at h
  cases h

/-! ## Placing a word -/

/-- On a running core whose `pc` is inside memory, placing a word is the store of its two bytes at `pc`. -/
theorem placeWord_running {s : State} (hf : s.FAULT = false) (h : s.pc.toNat ≤ 0xFFE) (w : Word) :
    s.placeWord w = { s with memory := s.memory.writeBytes s.pc.toNat [(bytesOfWord w).1, (bytesOfWord w).2] } := by
  simp [placeWord, hf, Nat.not_lt.mpr h]

/-- Whatever the state, the placed word leaves a running core with `pc` inside memory and the word's bytes at
`pc`. -/
theorem placeWord_cases (s : State) (w : Word) : ∃ q : State, q.FAULT = false ∧ q.pc.toNat ≤ 0xFFE ∧
    q.memory = s.memory ∧
    s.placeWord w = { q with memory := q.memory.writeBytes q.pc.toNat [(bytesOfWord w).1, (bytesOfWord w).2] } := by
  refine ⟨_, ?_, ?_, ?_, rfl⟩ <;> cases hf : s.FAULT <;> by_cases h : s.pc.toNat > 0xFFE <;>
    simp [h, hf, Config.loadAddr]
  all_goals omega

/-- The placed word is the word the next fetch reads. -/
theorem fetch_placeWord {s : State} (hw : s.memory.wf) (w : Word) :
    (s.placeWord w).FAULT = false ∧ (s.placeWord w).fetch = .ok w := by
  obtain ⟨q, hf, hpc, hm, hq⟩ := s.placeWord_cases w
  rw [hq]
  refine ⟨hf, ?_⟩
  rw [fetch_ok _ (by exact hpc)]
  have hin : q.pc.toNat + [(bytesOfWord w).1, (bytesOfWord w).2].length ≤ Config.memSize := by
    simp [Config.memSize]; omega
  have h0 := Memory.read_writeBytes (hm ▸ hw) hin (k := 0) (by simp)
  have h1 := Memory.read_writeBytes (hm ▸ hw) hin (k := 1) (by simp)
  simp only [Nat.add_zero] at h0
  simp only [readByte, h0, h1, List.getElem_cons_zero, List.getElem_cons_succ, wordOfBytes_bytesOfWord]

/-! ## The end of a cycle -/

theorem tickDown_toNat (v : Byte) : (tickDown v).toNat = v.toNat - 1 := by
  unfold tickDown
  split
  · rw [BitVec.toNat_sub_of_le (by rw [BitVec.le_def]; simpa using ‹_›)]
    rfl
  · omega

/-- A completed cycle ticks and publishes (R38 step 6). -/
theorem endCycle_completed {t : State} (hf : t.FAULT = false) (hb : t.out.blocked = false) :
    t.endCycle = t.timerTick.publishDraw.consumeInput := by
  simp [endCycle, hf, hb]

/-- A cycle that raised a fault, or was blocked, does neither (R38 steps 5 and 7). -/
theorem endCycle_stopped {t : State} (h : t.FAULT = true ∨ t.out.blocked = true) : t.endCycle = t.consumeInput := by
  rcases h with h | h <;> simp [endCycle, h]

@[simp] theorem endCycle_FAULT (t : State) : t.endCycle.FAULT = t.FAULT := by
  unfold endCycle; split <;> rfl

@[simp] theorem endCycle_CAUSE (t : State) : t.endCycle.CAUSE = t.CAUSE := by
  unfold endCycle; split <;> rfl

@[simp] theorem endCycle_FINFO (t : State) : t.endCycle.FINFO = t.FINFO := by
  unfold endCycle; split <;> rfl

@[simp] theorem endCycle_pc (t : State) : t.endCycle.pc = t.pc := by
  unfold endCycle; split <;> rfl

@[simp] theorem endCycle_memory (t : State) : t.endCycle.memory = t.memory := by
  unfold endCycle; split <;> rfl

@[simp] theorem endCycle_stack (t : State) : t.endCycle.stack = t.stack := by
  unfold endCycle; split <;> rfl

end State

/-! ## Instructions -/

/-- Every instruction has a next state (R97, R230): a fault is the halted state. -/
theorem exec_next (i : Instr) (s : State) : ∃ t, exec i s = .next t := by
  cases i <;> first | exact ⟨_, rfl⟩ | exact s.commit_next _

/-- The call's effect: the stack and `pc`, or the fault at a full stack (R131). -/
theorem execCall_cases (nnn : BitVec 12) (s : State) :
    (∃ h : s.sp.val < 16, exec (.call nnn) s =
      .next (({ s with stack := s.stack.set s.sp.val s.pc, sp := ⟨s.sp.val + 1, by omega⟩ } : State).jump
        (zext16 nnn))) ∨
    (s.sp.val = 16 ∧ exec (.call nnn) s = .next (s.faultEntry ⟨.stackOverflow, s.pc.toNat⟩)) := by
  rcases s.push_cases s.pc with ⟨h, hp⟩ | ⟨h, hp⟩
  · exact .inl ⟨h, by simp only [exec, execCall, hp, ok_bind, State.commit_ok]⟩
  · exact .inr ⟨h, by simp only [exec, execCall, hp, error_bind, State.commit_error]⟩

/-- The return's effect: `sp` and `pc`, or the fault at an empty stack (R121). -/
theorem execRet_cases (s : State) :
    (∃ h : 0 < s.sp.val, exec .ret s =
      .next (({ s with sp := ⟨s.sp.val - 1, by omega⟩ } : State).jump (s.stack[s.sp.val - 1] + 2))) ∨
    (s.sp.val = 0 ∧ exec .ret s = .next (s.faultEntry ⟨.stackUnderflow, s.pc.toNat⟩)) := by
  rcases s.pop_cases with ⟨h, hp⟩ | ⟨h, hp⟩
  · exact .inl ⟨h, by simp only [exec, execRet, hp, ok_bind, State.commit_ok]⟩
  · exact .inr ⟨h, by simp only [exec, execRet, hp, error_bind, State.commit_error]⟩

/-- The draw's effect: the framebuffer and flag of the canvas, `drawFlag`, `pc` (R185). -/
theorem execDrw_cases (x y : RegNum) (n : Fin 16) (s : State) :
    (∃ d : Canvas, drawRows s (s.reg x) (s.reg y) ⟨s.fb, false⟩ (List.range n.val) = .ok d ∧
      exec (.drw x y n) s = .next (({ s with fb := d.fb, drawFlag := true }).setFlag d.hit).advance) ∨
    (∃ e : FaultRaise, drawRows s (s.reg x) (s.reg y) ⟨s.fb, false⟩ (List.range n.val) = .error e ∧
      exec (.drw x y n) s = .next (s.faultEntry e)) := by
  cases h : drawRows s (s.reg x) (s.reg y) ⟨s.fb, false⟩ (List.range n.val) with
  | ok d => exact .inl ⟨d, rfl, by simp [exec, execDrw, h, ok_bind]⟩
  | error e => exact .inr ⟨e, rfl, by simp [exec, execDrw, h, error_bind]⟩

/-- The dump's effect: memory and `pc`, or the fault at the first address outside memory (R221, R238). -/
theorem execLdMemVx_cases (x : RegNum) (s : State) :
    (s.ea x.val ≤ 0xFFF ∧ ∃ m : Memory, storeRegs s (regsUpTo x) = .ok { s with memory := m } ∧
      exec (.ldMemVx x) s = .next ({ s with memory := m }).advance) ∨
    (0xFFF < s.ea x.val ∧
      exec (.ldMemVx x) s = .next (s.faultEntry ⟨.memoryFault, max s.I.toNat 0x1000⟩)) := by
  by_cases h : s.ea x.val ≤ 0xFFF
  · have hall : ∀ i ∈ regsUpTo x, s.ea i.val ≤ 0xFFF := fun i hi => by
      have := mem_regsUpTo.mp hi
      simp only [State.ea] at h ⊢; omega
    obtain ⟨m, hm⟩ : ∃ m : Memory, storeRegs s (regsUpTo x) = .ok { s with memory := m } := by
      generalize regsUpTo x = l at hall
      clear h
      induction l generalizing s with
      | nil => exact ⟨_, rfl⟩
      | cons j l ih =>
        simp only [storeRegs, State.memWrite_ok s (hall j List.mem_cons_self), ok_bind]
        exact ih { s with memory := s.memory.write (s.ea j.val) (s.reg j) }
          fun i hi => hall i (List.mem_cons_of_mem _ hi)
    exact .inl ⟨h, m, hm, by simp [exec, execLdMemVx, hm, ok_bind]⟩
  · obtain ⟨pre, i, post, hsplit, hpre, hi⟩ := regsUpTo_split (x := x) (s := s) (by omega)
    refine .inr ⟨by omega, ?_⟩
    simp only [exec, execLdMemVx, hsplit, storeRegs_error hpre (show 0xFFF < s.ea i.val by omega), error_bind,
      State.commit_error, hi]

/-- The load's effect: the register file and `pc`, or the fault at the first address outside memory (R222, R238). -/
theorem execLdVxMem_cases (x : RegNum) (s : State) :
    (s.ea x.val ≤ 0xFFF ∧ ∃ V, exec (.ldVxMem x) s = .next ({ s with V := V }).advance ∧
      (∀ i : RegNum, i.val ≤ x.val → ({ s with V := V } : State).reg i = s.readByte (s.ea i.val)) ∧
      (∀ i : RegNum, x.val < i.val → ({ s with V := V } : State).reg i = s.reg i)) ∨
    (0xFFF < s.ea x.val ∧
      exec (.ldVxMem x) s = .next (s.faultEntry ⟨.memoryFault, max s.I.toNat 0x1000⟩)) := by
  by_cases h : s.ea x.val ≤ 0xFFF
  · obtain ⟨V, hV, hin, hout⟩ := loadRegs_ok (regsUpTo_nodup x) (s := s) fun i hi => by
      have := mem_regsUpTo.mp hi
      simp only [State.ea] at h ⊢; omega
    refine .inl ⟨h, V, by simp [exec, execLdVxMem, hV, ok_bind], fun i hi => hin i (mem_regsUpTo.mpr hi),
      fun i hi => hout i fun hm => ?_⟩
    have := mem_regsUpTo.mp hm
    omega
  · obtain ⟨pre, i, post, hsplit, hpre, hi⟩ := regsUpTo_split (x := x) (s := s) (by omega)
    refine .inr ⟨by omega, ?_⟩
    simp only [exec, execLdVxMem, hsplit, loadRegs_error hpre (show 0xFFF < s.ea i.val by omega), error_bind,
      State.commit_error, hi]

/-- The BCD store's effect: memory and `pc`, or the fault at the first address outside memory (R220, R238). -/
theorem execLdB_cases (x : RegNum) (s : State) :
    (s.I.toNat + 2 ≤ 0xFFF ∧ ∃ m : Memory, storeBcd s (s.reg x) = .ok { s with memory := m } ∧
      exec (.ldB x) s = .next ({ s with memory := m }).advance) ∨
    (0xFFF < s.I.toNat + 2 ∧
      exec (.ldB x) s = .next (s.faultEntry ⟨.memoryFault, max s.I.toNat 0x1000⟩)) := by
  by_cases h : s.I.toNat + 2 ≤ 0xFFF
  · obtain ⟨m, hm⟩ : ∃ m : Memory, storeBcd s (s.reg x) = .ok { s with memory := m } := by
      refine ⟨((s.memory.write s.I.toNat (bcdHundreds (s.reg x))).write (s.I.toNat + 1) (bcdTens (s.reg x))).write
        (s.I.toNat + 2) (bcdOnes (s.reg x)), ?_⟩
      simp only [storeBcd, State.ea, Nat.add_zero]
      rw [State.memWrite_ok _ (show s.I.toNat ≤ 0xFFF by omega), ok_bind,
        State.memWrite_ok _ (show s.I.toNat + 1 ≤ 0xFFF by omega), ok_bind,
        State.memWrite_ok _ (show s.I.toNat + 2 ≤ 0xFFF by omega)]
    exact .inl ⟨h, m, hm, by simp [exec, execLdB, hm, ok_bind]⟩
  · exact .inr ⟨by omega, by simp [exec, execLdB, storeBcd_error (s.reg x) (show 0xFFF < s.I.toNat + 2 by omega),
      error_bind]⟩

/-- An instruction leaves the outputs as they are, but for the blocked cycle of `Fx0A` (R38 step 5). -/
theorem exec_out {i : Instr} {s t : State} (h : exec i s = .next t) :
    t.out = s.out ∨ ∃ x, i = .ldVxK x ∧ s.firstKey = none ∧ t = s.block := by
  cases i
  case ldVxK x =>
    simp only [exec, execLdVxK] at h
    split at h
    · exact .inr ⟨x, rfl, ‹_›, by cases h; rfl⟩
    · cases h; exact .inl rfl
  case ret =>
    left
    rcases execRet_cases s with ⟨_, hd⟩ | ⟨_, hd⟩ <;> rw [hd] at h <;> cases h <;> rfl
  case call nnn =>
    left
    rcases execCall_cases nnn s with ⟨_, hd⟩ | ⟨_, hd⟩ <;> rw [hd] at h <;> cases h <;> rfl
  case drw x y n =>
    left
    rcases execDrw_cases x y n s with ⟨_, _, hd⟩ | ⟨_, _, hd⟩ <;> rw [hd] at h <;> cases h <;> rfl
  case skp x =>
    left
    rcases keyIndex_cases (s.reg x) with ⟨_, hk⟩ | ⟨_, hk⟩ <;>
      simp [exec, execSkp, hk, ok_bind, error_bind] at h <;> subst h <;> simp
  case sknp x =>
    left
    rcases keyIndex_cases (s.reg x) with ⟨_, hk⟩ | ⟨_, hk⟩ <;>
      simp [exec, execSknp, hk, ok_bind, error_bind] at h <;> subst h <;> simp
  case ldB x =>
    left
    rcases execLdB_cases x s with ⟨_, _, _, hd⟩ | ⟨_, hd⟩ <;> rw [hd] at h <;> cases h <;> rfl
  case ldMemVx x =>
    left
    rcases execLdMemVx_cases x s with ⟨_, _, _, hd⟩ | ⟨_, hd⟩ <;> rw [hd] at h <;> cases h <;> rfl
  case ldVxMem x =>
    left
    rcases execLdVxMem_cases x s with ⟨_, _, hd, _⟩ | ⟨_, hd⟩ <;> rw [hd] at h <;> cases h <;> rfl
  all_goals
    left
    simp only [exec, execCls, execJp, execJpV0, execSeImm, execSneImm, execSeReg, execSneReg, execLdImm, execAddImm,
      execLdI, execLdReg, execOrReg, execAndReg, execXorReg, execAddReg, execSub, execShr, execSubn, execShl, execRnd,
      execLdVxDT, execLdDTVx, execLdSTVx, execAddI, execLdF, Host.Outcome.next.injEq] at h
    subst h
    simp

/-! ## Steps -/

theorem step_halted {s : State} (h : s.FAULT = true) : step s = .next s.haltedCycle := by
  simp [step, h]

theorem step_fetchFault {s : State} (h : s.FAULT = false) (hpc : 0xFFE < s.pc.toNat) :
    step s = .next (s.fetchFaultCycle ⟨.fetchFault, s.pc.toNat⟩) := by
  simp [step, h, s.fetch_error hpc]

/-- A running core that fetches a word ends the cycle on what the word does (R38). -/
theorem step_runWord {s t : State} {w : Word} (h : s.FAULT = false) (hw : s.fetch = .ok w)
    (ht : runWord w s.beginCycle = .next t) : step s = .next t.endCycle := by
  simp [step, h, hw, ht]

theorem runWord_known {w : Word} {i : Instr} (h : decode w = .known i) (s : State) : runWord w s = exec i s := by
  simp [runWord, h]

theorem runWord_unknown {w : Word} {f : UnknownFamily} (h : decode w = .unknown f) (s : State) :
    runWord w s = .next (s.unknownInstruction w) := by
  simp [runWord, h]

/-- Every word has a next state (R97). -/
theorem runWord_next (w : Word) (s : State) : ∃ t, runWord w s = .next t := by
  unfold runWord
  split
  · exact exec_next _ s
  · exact ⟨_, rfl⟩

/-- Everything a step can do: an empty halted cycle, a fetch fault, or a fetched word run to the cycle's end. -/
theorem step_cases {s u : State} (h : step s = .next u) :
    (s.FAULT = true ∧ u = s.haltedCycle) ∨
    (s.FAULT = false ∧ 0xFFE < s.pc.toNat ∧ u = s.fetchFaultCycle ⟨.fetchFault, s.pc.toNat⟩) ∨
    (s.FAULT = false ∧ ∃ w t, s.fetch = .ok w ∧ runWord w s.beginCycle = .next t ∧ u = t.endCycle) := by
  cases hF : s.FAULT with
  | true =>
    rw [step_halted hF] at h
    exact .inl ⟨rfl, by cases h; rfl⟩
  | false =>
    by_cases hpc : 0xFFE < s.pc.toNat
    · rw [step_fetchFault hF hpc] at h
      exact .inr (.inl ⟨rfl, hpc, by cases h; rfl⟩)
    · obtain ⟨t, ht⟩ := runWord_next (wordOfBytes (s.readByte s.pc.toNat) (s.readByte (s.pc.toNat + 1))) s.beginCycle
      have hw := s.fetch_ok (by omega)
      rw [step_runWord hF hw ht] at h
      exact .inr (.inr ⟨rfl, _, t, hw, ht, by cases h; rfl⟩)

end Sys2Proof.Machine
end

