-- ==== Sys2Proof/Laws/Inputs.lean ====
section
/-! SUPPORT. Laws/Inputs.lean: the shared operations do not look at the host's schedule: each commutes with a change
of it (spec/10_state.md R36). -/

namespace Sys2Proof.Machine

theorem State.withInputs_skipIf (s : State) (l : List CycleInput) (c : Bool) :
    (s.withInputs l).skipIf c = (s.skipIf c).withInputs l := by cases c <;> rfl

theorem State.withInputs_memWrite (s : State) (l : List CycleInput) (a : Nat) (v : Byte) :
    (s.withInputs l).memWrite a v = (s.memWrite a v).map (·.withInputs l) := by
  unfold State.memWrite; split <;> rfl

/-- An outcome committed from the changed state is the outcome with the schedule changed. -/
theorem State.withInputs_commit {s t : State} {r : Except FaultRaise State} (l : List CycleInput)
    (h : s.commit r = .next t) : (s.withInputs l).commit (r.map (·.withInputs l)) = .next (t.withInputs l) := by
  cases r <;> cases h <;> rfl

theorem drawRows_withInputs (s : State) (l : List CycleInput) (vx vy : Byte) (d : Canvas) (rs : List Nat) :
    drawRows (s.withInputs l) vx vy d rs = drawRows s vx vy d rs := by
  induction rs generalizing d with
  | nil => rfl
  | cons r rs ih => simp only [drawRows, ih]; rfl

theorem storeRegs_withInputs (s : State) (l : List CycleInput) (rs : List RegNum) :
    storeRegs (s.withInputs l) rs = (storeRegs s rs).map (·.withInputs l) := by
  induction rs generalizing s with
  | nil => rfl
  | cons r rs ih =>
    show ((s.withInputs l).memWrite (s.ea r.val) (s.reg r) >>= fun t => storeRegs t rs) = _
    rw [State.withInputs_memWrite]
    simp only [storeRegs]
    cases s.memWrite (s.ea r.val) (s.reg r)
    · rfl
    · exact ih _

theorem loadRegs_withInputs (s : State) (l : List CycleInput) (rs : List RegNum) :
    loadRegs (s.withInputs l) rs = (loadRegs s rs).map (·.withInputs l) := by
  induction rs generalizing s with
  | nil => rfl
  | cons r rs ih =>
    show (s.memRead (s.ea r.val) >>= fun b => loadRegs ((s.setReg r b).withInputs l) rs) = _
    simp only [loadRegs]
    cases s.memRead (s.ea r.val)
    · rfl
    · exact ih _

theorem storeBcd_withInputs (s : State) (l : List CycleInput) (v : Byte) :
    storeBcd (s.withInputs l) v = (storeBcd s v).map (·.withInputs l) := by
  unfold storeBcd
  rw [show (s.withInputs l).ea 0 = s.ea 0 from rfl, State.withInputs_memWrite]
  cases s.memWrite (s.ea 0) (bcdHundreds v) with
  | error => rfl
  | ok a =>
    show ((a.withInputs l).memWrite (a.ea 1) _ >>= fun b => b.memWrite (b.ea 2) _) =
      Except.map _ (a.memWrite (a.ea 1) _ >>= fun b => b.memWrite (b.ea 2) _)
    rw [State.withInputs_memWrite]
    cases a.memWrite (a.ea 1) (bcdTens v) with
    | error => rfl
    | ok b => exact State.withInputs_memWrite b l (b.ea 2) _

end Sys2Proof.Machine
end

