-- ==== Sys2Proof/Laws/Loader.lean ====
section
/-! SUPPORT. Laws/Loader.lean: what the host's load and reset do, said once each. -/

namespace Sys2Proof.Machine

/-- A load answers exactly where the image fits, and changes memory and `pc` alone (R276, R277). -/
theorem loadRom_eq_some {s t : State} {rom : List Byte} : s.loadRom rom = some t ↔ rom.length ≤ 3584 ∧
    t = { s with memory := s.memory.writeBytes Config.loadAddr rom, pc := 0x0200 } := by
  by_cases h : rom.length ≤ 3584 <;> simp [State.loadRom, Config.loadAddr, h, eq_comm]

theorem resetImage_font {font : Vector Byte 80} (fill : Byte) {a : Nat} (h : a < 80) :
    resetImage font fill a = font[a] := by
  simp [resetImage, h]

theorem resetImage_fill (font : Vector Byte 80) (fill : Byte) {a : Nat} (h : 80 ≤ a) :
    resetImage font fill a = fill := by
  simp [resetImage, Nat.not_lt.mpr h]

@[simp] theorem resetWith_memory (font : Vector Byte 80) (fill : Byte) :
    (State.resetWith font fill).memory = Memory.ofImage (resetImage font fill) := by
  simp only [State.resetWith]

/-- Memory is canonical after reset, whatever the parameters. -/
theorem resetWith_wf (font : Vector Byte 80) (fill : Byte) : (State.resetWith font fill).memory.wf := by
  rw [resetWith_memory]
  exact Memory.ofImage_wf _

/-- Every byte of main memory after reset, before the load. -/
theorem readByte_resetWith (font : Vector Byte 80) (fill : Byte) {a : Nat} (h : a < 4096) :
    (State.resetWith font fill).readByte a = resetImage font fill a := by
  rw [State.readByte, resetWith_memory]
  exact Memory.read_ofImage _ h

/-- A load leaves the bytes below 0x200, the font table among them, as they were. -/
theorem readByte_loadRom_of_lt {s t : State} {rom : List Byte} (h : s.loadRom rom = some t) {a : Nat} (ha : a < 0x200) :
    t.readByte a = s.readByte a := by
  obtain ⟨-, rfl⟩ := loadRom_eq_some.mp h
  exact Memory.read_writeBytes_of_lt _ _ ha

/-- Asserting reset is launching with the same parameters, the host's own schedule kept. -/
theorem assertReset_eq_some {s t : State} {font : Vector Byte 80} {fill : Byte} {rom : List Byte} :
    s.assertReset font fill rom = some t ↔
      ∃ u, launchWith font fill rom = some u ∧ t = { u with inputs := s.inputs, cycleNo := s.cycleNo } := by
  simp [State.assertReset, eq_comm]

end Sys2Proof.Machine
end

