-- ==== Sys2Proof/Laws/PerInstr.lean ====
section
/-! SUPPORT. Laws/PerInstr.lean: statements about each instruction as syntax, one lemma per constructor. -/

namespace Sys2Proof.Laws.RowMatch

/-- The instruction's word selects the instruction's own row of the opcode map: the row's mask leaves the row's
match value (spec/30_encoding.md R96). -/
def Statement (i : Instr) : Prop := encode i &&& (rowOf i).mask = (rowOf i).pattern

theorem cls : Statement .cls := rfl
theorem ret : Statement .ret := rfl
theorem jp (nnn : BitVec 12) : Statement (.jp nnn) := encodeNNN_and_family _ nnn
theorem call (nnn : BitVec 12) : Statement (.call nnn) := encodeNNN_and_family _ nnn
theorem seImm (x : RegNum) (kk : Byte) : Statement (.seImm x kk) := encodeXKK_and_family _ x kk
theorem sneImm (x : RegNum) (kk : Byte) : Statement (.sneImm x kk) := encodeXKK_and_family _ x kk
theorem seReg (x y : RegNum) : Statement (.seReg x y) := encodeXYN_and_family _ x y _
theorem ldImm (x : RegNum) (kk : Byte) : Statement (.ldImm x kk) := encodeXKK_and_family _ x kk
theorem addImm (x : RegNum) (kk : Byte) : Statement (.addImm x kk) := encodeXKK_and_family _ x kk
theorem ldReg (x y : RegNum) : Statement (.ldReg x y) := encodeXYN_and_low_nibble _ x y _
theorem orReg (x y : RegNum) : Statement (.orReg x y) := encodeXYN_and_low_nibble _ x y _
theorem andReg (x y : RegNum) : Statement (.andReg x y) := encodeXYN_and_low_nibble _ x y _
theorem xorReg (x y : RegNum) : Statement (.xorReg x y) := encodeXYN_and_low_nibble _ x y _
theorem addReg (x y : RegNum) : Statement (.addReg x y) := encodeXYN_and_low_nibble _ x y _
theorem sub (x y : RegNum) : Statement (.sub x y) := encodeXYN_and_low_nibble _ x y _
theorem shr (x y : RegNum) : Statement (.shr x y) := encodeXYN_and_low_nibble _ x y _
theorem subn (x y : RegNum) : Statement (.subn x y) := encodeXYN_and_low_nibble _ x y _
theorem shl (x y : RegNum) : Statement (.shl x y) := encodeXYN_and_low_nibble _ x y _
theorem sneReg (x y : RegNum) : Statement (.sneReg x y) := encodeXYN_and_family _ x y _
theorem ldI (nnn : BitVec 12) : Statement (.ldI nnn) := encodeNNN_and_family _ nnn
theorem jpV0 (nnn : BitVec 12) : Statement (.jpV0 nnn) := encodeNNN_and_family _ nnn
theorem rnd (x : RegNum) (kk : Byte) : Statement (.rnd x kk) := encodeXKK_and_family _ x kk
theorem drw (x y : RegNum) (n : Fin 16) : Statement (.drw x y n) := encodeXYN_and_family _ x y _
theorem skp (x : RegNum) : Statement (.skp x) := encodeXKK_and_low_byte _ x _
theorem sknp (x : RegNum) : Statement (.sknp x) := encodeXKK_and_low_byte _ x _
theorem ldVxDT (x : RegNum) : Statement (.ldVxDT x) := encodeXKK_and_low_byte _ x _
theorem ldVxK (x : RegNum) : Statement (.ldVxK x) := encodeXKK_and_low_byte _ x _
theorem ldDTVx (x : RegNum) : Statement (.ldDTVx x) := encodeXKK_and_low_byte _ x _
theorem ldSTVx (x : RegNum) : Statement (.ldSTVx x) := encodeXKK_and_low_byte _ x _
theorem addI (x : RegNum) : Statement (.addI x) := encodeXKK_and_low_byte _ x _
theorem ldF (x : RegNum) : Statement (.ldF x) := encodeXKK_and_low_byte _ x _
theorem ldB (x : RegNum) : Statement (.ldB x) := encodeXKK_and_low_byte _ x _
theorem ldMemVx (x : RegNum) : Statement (.ldMemVx x) := encodeXKK_and_low_byte _ x _
theorem ldVxMem (x : RegNum) : Statement (.ldVxMem x) := encodeXKK_and_low_byte _ x _

end Sys2Proof.Laws.RowMatch
end

