-- ==== Sys2Proof/WellFormed.lean ====
section
/-! DEFINITION. WellFormed.lean: which instruction terms are written in the canonical form, the one the spec's
assembler emits (spec/30_encoding.md R95, R100). The operand types already bound every field to its width (R92),
so the one thing left to check is the field the machine ignores. A term that fails the check still decodes and
runs (R98: "all 16 values of `y` are the same instruction"); no meaning and no statement depends on the check. -/

namespace Sys2Proof

/-- R100: "`SHR Vx` and `SHL Vx` are assembled with `y = 0`"; every other term has no ignored field. -/
def Instr.wellFormed : Instr → Bool
  | .cls | .ret => true
  | .jp _ | .call _ | .ldI _ | .jpV0 _ => true
  | .seImm _ _ | .sneImm _ _ | .ldImm _ _ | .addImm _ _ | .rnd _ _ => true
  | .seReg _ _ | .sneReg _ _ => true
  | .ldReg _ _ | .orReg _ _ | .andReg _ _ | .xorReg _ _ => true
  | .addReg _ _ | .sub _ _ | .subn _ _ => true
  | .shr _ y | .shl _ y => y == 0
  | .drw _ _ _ => true
  | .skp _ | .sknp _ => true
  | .ldVxDT _ | .ldVxK _ | .ldDTVx _ | .ldSTVx _ | .addI _ | .ldF _ => true
  | .ldB _ | .ldMemVx _ | .ldVxMem _ => true

end Sys2Proof
end

