-- ==== Sys2Proof/Tests/Slice0.lean ====
section
/-! SUPPORT. Tests/Slice0.lean: decode tests with words written out from spec/30_encoding.md R91 and R96, the
well-formedness smoke tests, one-step tests whose expected results are the vectors of spec/95_test_vectors.md (named
T<n> or by section), and for each obligation with hypotheses a witness that meets them. -/

namespace Sys2Proof.Tests

open Sys2Proof.Machine

/-! ## Small states -/

/-- The start state of spec/95_test_vectors.md with some registers set: reset, `keys_in` = 0x0000, `rnd_in` = 0x01. -/
def start (rs : List (RegNum × Byte)) : State :=
  rs.foldl (fun s r => s.setReg r.1 r.2) { State.reset with inputs := [⟨0x0000, 0x01⟩] }

/-- With bytes placed in memory. -/
def put (s : State) (a : Nat) (bs : List Byte) : State := { s with memory := s.memory.writeBytes a bs }

/-- With what the host presents to the cycle. -/
def given (s : State) (keys : BitVec 16) (rnd : Byte) : State := { s with inputs := [⟨keys, rnd⟩] }

/-- With some pixels set. -/
def lit (s : State) (ps : List Nat) : State := { s with fb := ps.foldl (fun fb p => setPixel fb p true) s.fb }

/-- One cycle with the word placed at `pc`. -/
def ran (s : State) (w : Word) : Option State :=
  match step (s.withFetchWord 16 w.toNat) with
  | .next t => some t
  | _ => none

/-- Some view of the state after one cycle with the word placed at `pc`. -/
def see {α : Type} (s : State) (w : Word) (f : State → α) : Option α := (ran s w).map f

/-- `pc`, the three fault registers. -/
def faultView (t : State) : Word × Bool × BitVec 3 × BitVec 17 := (t.pc, t.FAULT, t.CAUSE, t.FINFO)

/-! ## Decoding: words written out from the formats of R91 and the rows of R96 -/

-- family 0: the whole word
theorem test_decode_family0 : decode 0x00E0 = .known .cls ∧ decode 0x00EE = .known .ret ∧
    decode 0x00E1 = .unknown .family0 := by decide
-- 0001 1010 1011 1100: family 1, nnn = 0xABC
theorem test_decode_family1 : decode 0b0001101010111100 = .known (.jp 0xABC) := by decide
-- 0010 0011 0000 0000: family 2, nnn = 0x300
theorem test_decode_family2 : decode 0b0010001100000000 = .known (.call 0x300) := by decide
-- 0011 0011 0100 0010: family 3, x = 3, kk = 0x42
theorem test_decode_family3 : decode 0b0011001101000010 = .known (.seImm 0x3 0x42) := by decide
-- 0100 0011 0100 0010: family 4, x = 3, kk = 0x42
theorem test_decode_family4 : decode 0b0100001101000010 = .known (.sneImm 0x3 0x42) := by decide
-- 0101 0001 0010 0000: family 5, x = 1, y = 2, low nibble ignored (R95)
theorem test_decode_family5 : decode 0b0101000100100000 = .known (.seReg 0x1 0x2) ∧
    decode 0b0101000100101111 = .known (.seReg 0x1 0x2) := by decide
-- 0110 1010 0111 1111: family 6, x = 0xA, kk = 0x7F
theorem test_decode_family6 : decode 0b0110101001111111 = .known (.ldImm 0xA 0x7F) := by decide
-- 0111 0010 0000 0011: family 7, x = 2, kk = 3
theorem test_decode_family7 : decode 0b0111001000000011 = .known (.addImm 0x2 0x03) := by decide
-- 1000 xxxx yyyy ssss: family 8, x = 4, y = 5
theorem test_decode_family8_low : decode 0b1000010001010000 = .known (.ldReg 0x4 0x5) ∧
    decode 0b1000010001010001 = .known (.orReg 0x4 0x5) ∧ decode 0b1000010001010010 = .known (.andReg 0x4 0x5) ∧
    decode 0b1000010001010011 = .known (.xorReg 0x4 0x5) := by decide
theorem test_decode_family8_high : decode 0b1000010001010100 = .known (.addReg 0x4 0x5) ∧
    decode 0b1000010001010101 = .known (.sub 0x4 0x5) ∧ decode 0b1000010001010110 = .known (.shr 0x4 0x5) ∧
    decode 0b1000010001010111 = .known (.subn 0x4 0x5) ∧ decode 0b1000010001011110 = .known (.shl 0x4 0x5) ∧
    decode 0b1000010001011000 = .unknown .family8 := by decide
-- 1001 0001 0010 0101: family 9, x = 1, y = 2, low nibble ignored (R95)
theorem test_decode_family9 : decode 0b1001000100100000 = .known (.sneReg 0x1 0x2) ∧
    decode 0b1001000100100101 = .known (.sneReg 0x1 0x2) := by decide
-- 1010 0010 1111 0000: family A, nnn = 0x2F0
theorem test_decode_familyA : decode 0b1010001011110000 = .known (.ldI 0x2F0) := by decide
-- 1011 0011 0000 0000: family B, nnn = 0x300
theorem test_decode_familyB : decode 0b1011001100000000 = .known (.jpV0 0x300) := by decide
-- 1100 0011 0000 1111: family C, x = 3, kk = 0x0F
theorem test_decode_familyC : decode 0b1100001100001111 = .known (.rnd 0x3 0x0F) := by decide
-- 1101 0001 0010 0101: family D, x = 1, y = 2, n = 5
theorem test_decode_familyD : decode 0b1101000100100101 = .known (.drw 0x1 0x2 0x5) := by decide
-- 1110 xxxx 1001 1110 and 1110 xxxx 1010 0001: family E, x = 4
theorem test_decode_familyE : decode 0b1110010010011110 = .known (.skp 0x4) ∧
    decode 0b1110010010100001 = .known (.sknp 0x4) ∧ decode 0b1110010010011111 = .unknown .familyE := by decide
-- 1111 xxxx ssss ssss: family F, x = 3
theorem test_decode_familyF_timers : decode 0b1111001100000111 = .known (.ldVxDT 0x3) ∧
    decode 0b1111001100001010 = .known (.ldVxK 0x3) ∧ decode 0b1111001100010101 = .known (.ldDTVx 0x3) ∧
    decode 0b1111001100011000 = .known (.ldSTVx 0x3) ∧ decode 0b1111001100011110 = .known (.addI 0x3) := by decide
theorem test_decode_familyF_memory : decode 0b1111001100101001 = .known (.ldF 0x3) ∧
    decode 0b1111001100110011 = .known (.ldB 0x3) ∧ decode 0b1111001101010101 = .known (.ldMemVx 0x3) ∧
    decode 0b1111001101100101 = .known (.ldVxMem 0x3) ∧ decode 0b1111001101110101 = .unknown .familyF := by decide

/-- The rows of R96 do not overlap: two different rows disagree on a bit both look at. -/
theorem test_opcode_rows_disjoint : opcodeTable.Pairwise
    (fun r q => r.pattern &&& (r.mask &&& q.mask) ≠ q.pattern &&& (r.mask &&& q.mask)) := by decide

/-- The bytes of a word in the order memory holds them (R64). -/
theorem test_bytes_big_endian : bytesOfWord 0xA2F0 = (0xA2, 0xF0) ∧ wordOfBytes 0xA2 0xF0 = 0xA2F0 := by decide

/-! ## Well-formedness: each check refuses an ill-formed term (R100) -/

theorem test_wellFormed_refuses_shr_y : Instr.wellFormed (.shr 0x0 0x1) = false := by decide
theorem test_wellFormed_refuses_shl_y : Instr.wellFormed (.shl 0x0 0x1) = false := by decide
theorem test_wellFormed_accepts : Instr.wellFormed (.shr 0x7 0x0) = true ∧ Instr.wellFormed (.drw 0x1 0x2 0x5) = true := by
  decide

/-! ## Reset and load (section 2.12, T10) -/

theorem test_launch_rom : (launch [0xA2, 0xF0, 0x12, 0x02]).map (fun s =>
    ([0x000, 0x001, 0x04F, 0x050, 0x1FF].map s.readByte, [0x200, 0x201, 0x202, 0x203, 0x204, 0xFFF].map s.readByte,
      s.pc)) =
    some ([0xF0, 0x90, 0x80, 0x00, 0x00], [0xA2, 0xF0, 0x12, 0x02, 0x00, 0x00], 0x0200) := by decide
theorem test_launch_size_limit : (launch (List.replicate 3584 0x00)).isSome = true ∧
    launch (List.replicate 3585 0x00) = none := by
  constructor <;> unfold launch State.loadRom
  · rw [if_pos (by rw [List.length_replicate])]; rfl
  · rw [if_neg (by rw [List.length_replicate]; decide)]

/-- A halted core with a font of its own gets that font back at reset (R36, R270, decision D27). -/
theorem test_reset_reloads_the_cores_font (t : State)
    (h : { State.reset with FAULT := true, DT := 9 }.assertReset (Vector.replicate 80 0x3C) 0x00 [0x12, 0x00] = some t) :
    t.FAULT = false ∧ t.DT = 0 ∧ t.readByte 0x04F = 0x3C := by
  obtain ⟨u, hu, rfl⟩ := assertReset_eq_some.mp h
  have hb : u.readByte 0x04F = 0x3C := by
    rw [readByte_loadRom_of_lt hu (by decide), readByte_resetWith _ _ (by decide), resetImage_font _ (by decide)]
    decide
  have hs := (loadRom_eq_some.mp hu).2
  exact ⟨by rw [hs]; rfl, by rw [hs]; rfl, hb⟩

/-! ## Family 0 -/

theorem test_cls : see (lit (start []) [0, 2047]) 0x00E0
    (fun t => (t.pc, t.pixel 0, t.pixel 2047, t.out.drawReq, t.drawFlag)) =
    some (0x0202, false, false, true, false) := by decide
theorem test_ret : see { start [] with pc := 0x300, sp := 1, stack := (Vector.replicate 16 0).set 0 0x0200 } 0x00EE
    (fun t => (t.pc, t.sp, t.stack[0])) = some (0x0202, 0, 0x0200) := by decide
theorem test_ret_underflow : see (start []) 0x00EE faultView = some (0x0200, true, 6, 0x200) := by decide
theorem test_unknown_family0 : see (start []) 0x0123 (fun t => (t.pc, t.out)) =
    some (0x0202, ⟨false, false, true, 0x0123, false⟩) := by decide

/-! ## Families 1, 2, B -/

theorem test_jp : see (start []) 0x1FFF (fun t => t.pc) = some 0x0FFF := by decide
theorem test_call : see { start [] with pc := 0x3FF, sp := 3 } 0x2ABD (fun t => (t.pc, t.sp, t.stack[3])) =
    some (0x0ABD, 4, 0x03FF) := by decide
theorem test_call_overflow : see { start [] with sp := 16 } 0x2300 (fun t => (faultView t, t.sp)) =
    some ((0x0200, true, 5, 0x200), 16) := by decide
theorem test_jpV0_not_masked : see (start [(0, 0xFF)]) 0xBFFF (fun t => t.pc) = some 0x10FE := by decide
theorem test_jpV0_always_V0 : see (start [(0, 0x01), (2, 0x77)]) 0xB2FF (fun t => t.pc) = some 0x0300 := by decide

/-! ## Families 3, 4, 5, 9 -/

theorem test_seImm : see (start [(3, 0x42)]) 0x3342 (fun t => t.pc) = some 0x0204 ∧
    see (start [(3, 0x41)]) 0x3342 (fun t => t.pc) = some 0x0202 := by decide
theorem test_seImm_past_the_end : see { start [] with pc := 0xFFE } 0x3000 (fun t => t.pc) = some 0x1002 := by decide
theorem test_sneImm : see (start [(3, 0x41)]) 0x4342 (fun t => t.pc) = some 0x0204 ∧
    see (start [(3, 0x42)]) 0x4342 (fun t => t.pc) = some 0x0202 := by decide
theorem test_seReg : see (start [(1, 7), (2, 7)]) 0x512F (fun t => (t.pc, t.out.unkValid)) = some (0x0204, false) ∧
    see (start [(1, 7), (2, 8)]) 0x5120 (fun t => t.pc) = some 0x0202 := by decide
theorem test_sneReg : see (start [(1, 7), (2, 8)]) 0x9125 (fun t => (t.pc, t.out.unkValid)) = some (0x0204, false) ∧
    see (start [(1, 7), (2, 7)]) 0x9120 (fun t => t.pc) = some 0x0202 := by decide

/-! ## Families 6, 7, A -/

theorem test_ldImm : see (start []) 0x6A7F (fun t => (t.pc, t.reg 0xA)) = some (0x0202, 0x7F) := by decide
theorem test_addImm_wraps_no_flag : see (start [(2, 0xFE)]) 0x7203 (fun t => (t.reg 2, t.reg 0xF)) =
    some (0x01, 0x00) := by decide
theorem test_addImm_to_flag_register : see (start [(0xF, 0xFF)]) 0x7F01 (fun t => t.reg 0xF) = some 0x00 := by decide
theorem test_ldI : see { start [] with I := 0x1234 } 0xAFFF (fun t => (t.pc, t.I)) = some (0x0202, 0x0FFF) := by decide

/-! ## Family 8 -/

theorem test_ldReg : see (start [(1, 0x3C)]) 0x8010 (fun t => (t.reg 0, t.reg 1)) = some (0x3C, 0x3C) := by decide
theorem test_orReg_keeps_flag : see (start [(0, 0xF0), (1, 0x0F), (0xF, 1)]) 0x8011 (fun t => (t.reg 0, t.reg 0xF)) =
    some (0xFF, 1) := by decide
theorem test_andReg_keeps_flag : see (start [(0, 0xF0), (1, 0x3C), (0xF, 1)]) 0x8012 (fun t => (t.reg 0, t.reg 0xF)) =
    some (0x30, 1) := by decide
theorem test_xorReg_keeps_flag : see (start [(0, 0xF0), (1, 0x3C), (0xF, 1)]) 0x8013 (fun t => (t.reg 0, t.reg 0xF)) =
    some (0xCC, 1) := by decide
-- T2
theorem test_addReg_carry : see (start [(0, 0xFF), (1, 0x01)]) 0x8014 (fun t => (t.reg 0, t.reg 0xF)) =
    some (0x00, 1) := by decide
theorem test_addReg_into_flag : see (start [(1, 0x01), (0xF, 0x10)]) 0x8F14 (fun t => t.reg 0xF) = some 0 := by decide
-- T3
theorem test_sub_borrow : see (start [(0, 0x03), (1, 0x05), (0xF, 1)]) 0x8015 (fun t => (t.reg 0, t.reg 0xF)) =
    some (0xFE, 0) := by decide
theorem test_sub_equal_is_no_borrow : see (start [(0, 0x07), (1, 0x07)]) 0x8015 (fun t => (t.reg 0, t.reg 0xF)) =
    some (0x00, 1) := by decide
theorem test_shr_ignores_y : see (start [(0, 0xFF), (1, 0x02)]) 0x8016 (fun t => (t.reg 0, t.reg 1, t.reg 0xF)) =
    some (0x7F, 0x02, 1) := by decide
theorem test_shr_flag_register : see (start [(0xF, 0x02)]) 0x8F06 (fun t => t.reg 0xF) = some 0 := by decide
theorem test_subn : see (start [(0, 0x05), (1, 0x03), (0xF, 1)]) 0x8017 (fun t => (t.reg 0, t.reg 0xF)) =
    some (0xFE, 0) := by decide
theorem test_subn_minuend_is_flag : see (start [(0, 0x03), (0xF, 0x05)]) 0x80F7 (fun t => (t.reg 0, t.reg 0xF)) =
    some (0x02, 1) := by decide
theorem test_shl_ignores_y : see (start [(0, 0xFF), (1, 0x01)]) 0x801E (fun t => (t.reg 0, t.reg 1, t.reg 0xF)) =
    some (0xFE, 0x01, 1) := by decide
theorem test_shl_flag_register : see (start [(0xF, 0x41)]) 0x8F0E (fun t => t.reg 0xF) = some 0 := by decide

/-! ## Family C -/

theorem test_rnd : see (given (start []) 0x0000 0xA7) 0xC30F (fun t => t.reg 3) = some 0x07 := by decide
theorem test_rnd_masked_to_zero : see (given (start [(3, 0x55)]) 0x0000 0x10) 0xC30F (fun t => t.reg 3) =
    some 0x00 := by decide

/-! ## Family D -/

-- the row-bleed vector: columns 60 to 63 of row 0, then columns 0 to 3 of row 1
set_option maxRecDepth 4000 in
theorem test_drw_row_bleed : see (put { start [(0, 60)] with I := 0x300 } 0x300 [0xFF]) 0xD011
    (fun t => ([59, 60, 63, 64, 67, 68].map t.pixel, t.reg 0xF, t.out.drawReq)) =
    some ([false, true, true, true, true, false], 0, true) := by decide
-- collision in row 0 stays set through row 1
theorem test_drw_collision : see (lit (put { start [(0, 10), (1, 5), (0xF, 1)] with I := 0x300 } 0x300 [0xC0, 0xC0])
    [330, 395]) 0xD012 (fun t => ([330, 331, 394, 395].map t.pixel, t.reg 0xF)) =
    some ([false, true, true, false], 1) := by decide
-- row 1's fault leaves row 0 undrawn
theorem test_drw_framebuffer_fault : see (lit (put { start [(1, 31)] with I := 0x300 } 0x300 [0xC0, 0x80]) [1984])
    0xD012 (fun t => (faultView t, t.pixel 1984, t.pixel 1985)) =
    some ((0x0200, true, 3, 0x800), true, false) := by decide
theorem test_drw_memory_fault : see (put { start [] with I := 0xFFF } 0xFFF [0x80]) 0xD012
    (fun t => (faultView t, t.pixel 0)) = some ((0x0200, true, 1, 0x1000), false) := by decide

/-! ## Family E and `Fx0A` -/

theorem test_skp : see (given (start [(4, 0x0A)]) 0x0400 1) 0xE49E (fun t => t.pc) = some 0x0204 ∧
    see (given (start [(4, 0x0A)]) 0xFBFF 1) 0xE49E (fun t => t.pc) = some 0x0202 := by decide
theorem test_skp_index_fault : see (given (start [(4, 0x10)]) 0xFFFF 1) 0xE49E faultView =
    some (0x0200, true, 4, 0x10) := by decide
theorem test_sknp : see (given (start [(4, 0x0A)]) 0x0400 1) 0xE4A1 (fun t => t.pc) = some 0x0202 ∧
    see (given (start [(4, 0x0A)]) 0xFBFF 1) 0xE4A1 (fun t => t.pc) = some 0x0204 := by decide
theorem test_sknp_index_fault : see (start [(4, 0x1A)]) 0xE4A1 faultView = some (0x0200, true, 4, 0x1A) := by decide
theorem test_ldVxK_blocks : see { start [] with DT := 5, ST := 1 } 0xF30A (fun t => (t.pc, t.DT, t.ST, t.out)) =
    some (0x0200, 5, 1, ⟨false, false, false, 0, true⟩) := by decide
theorem test_ldVxK_lowest_key : see (given { start [] with DT := 5, ST := 1 } 0x0120 1) 0xF30A
    (fun t => (t.reg 3, t.pc, t.DT, t.ST, t.out.beep)) = some (0x05, 0x0202, 4, 0, true) := by decide

/-! ## Family F -/

theorem test_ldVxDT : see { start [] with DT := 0x2A } 0xF507 (fun t => (t.reg 5, t.DT)) = some (0x2A, 0x29) := by
  decide
theorem test_ldDTVx : see (start [(5, 0x3C)]) 0xF515 (fun t => t.DT) = some 0x3B := by decide
theorem test_ldSTVx_beeps : see (start [(2, 0x01)]) 0xF218 (fun t => (t.ST, t.out.beep)) = some (0x00, true) := by decide
theorem test_ldSTVx_zero_is_no_beep : see { start [] with ST := 1 } 0xF218 (fun t => (t.ST, t.out.beep)) =
    some (0x00, false) := by decide
theorem test_addI_not_masked : see { start [(1, 0x01)] with I := 0x0FFF } 0xF11E (fun t => (t.I, t.reg 0xF)) =
    some (0x1000, 0) := by decide
theorem test_addI_wraps : see { start [(1, 0x02)] with I := 0xFFFF } 0xF11E (fun t => t.I) = some 0x0001 := by decide
theorem test_ldF_whole_byte : see (start [(3, 0x1A)]) 0xF329 (fun t => t.I) = some 0x0082 := by decide
-- T7
theorem test_ldB : see { start [(0, 156)] with I := 0x300 } 0xF033 (fun t => ([0x300, 0x301, 0x302].map t.readByte, t.I)) =
    some ([1, 5, 6], 0x300) := by decide
theorem test_ldB_fault_writes_nothing : see { start [(0, 100)] with I := 0xFFE } 0xF033
    (fun t => (faultView t, t.readByte 0xFFE)) = some ((0x0200, true, 1, 0x1000), 0) := by decide
theorem test_ldMemVx : see { start [(0, 0x11), (1, 0x22), (2, 0x33), (3, 0x44)] with I := 0x500 } 0xF255
    (fun t => ([0x500, 0x501, 0x502, 0x503].map t.readByte, t.I)) = some ([0x11, 0x22, 0x33, 0x00], 0x500) := by decide
theorem test_ldMemVx_font_is_ram : see { start [(0, 0xAB)] with I := 0x000 } 0xF055 (fun t => t.readByte 0x000) =
    some 0xAB := by decide
theorem test_ldVxMem : see (put { start [(2, 0x77)] with I := 0x500 } 0x500 [0xAA, 0xBB, 0xCC]) 0xF165
    (fun t => (t.reg 0, t.reg 1, t.reg 2, t.I)) = some (0xAA, 0xBB, 0x77, 0x500) := by decide
theorem test_ldVxMem_fault_loads_nothing : see (put { start [(0, 0x03)] with I := 0xFFF } 0xFFF [0x5A]) 0xF165
    (fun t => (faultView t, t.reg 0)) = some ((0x0200, true, 1, 0x1000), 0x03) := by decide

/-! ## The cycle (sections 2.9 and 2.11) -/

theorem test_tick_floor : see { start [] with DT := 0, ST := 2 } 0x6000 (fun t => (t.DT, t.ST, t.out.beep)) =
    some (0, 1, false) := by decide
theorem test_fetch_fault : (step { start [] with pc := 0x0FFF } matches .next _) = true ∧
    (match step { start [] with pc := 0x0FFF } with | .next t => faultView t | _ => faultView State.reset) =
      (0x0FFF, true, 2, 0xFFF) := by decide
theorem test_halted : (match step (put { start [] with FAULT := true, CAUSE := 5, FINFO := 0x222, DT := 4 } 0x200
    [0x60, 0x11]) with | .next t => some (faultView t, t.DT, t.reg 0) | _ => none) =
    some ((0x0200, true, 5, 0x222), 4, 0) := by decide

/-! ## Witnesses: for each obligation with hypotheses, a state and operands that meet them

Where a statement has several clauses, each clause has its witness, at a boundary value of its range. -/

/-- The outcome of an instruction as an option, so that a witness can look at it. -/
def out (i : Instr) (s : State) : Option State :=
  match exec i s with
  | .next t => some t
  | _ => none

/-- A core idling at `JP 0x200`, the program of one instruction. -/
def idle : State := { State.reset with memory := State.reset.memory.writeBytes 0x200 [0x12, 0x00] }

/-- A core halted by a stack overflow at 0x222. -/
def halted : State := { State.reset with FAULT := true, CAUSE := 5, FINFO := 0x222, pc := 0x222 }

-- O1, O3, O4: the largest ROM, the empty one, and one byte too many
theorem witness_ResetAndLoadHoldRule41Values : (List.replicate 3584 (0xFF : Byte)).length ≤ 3584 ∧
    ([] : List Byte).length ≤ 3584 := ⟨by rw [List.length_replicate], by decide⟩
theorem witness_LaunchTakesTheDefaultFontAndZeroFill : ∃ font : Vector Byte 80, font.toList = fontTable :=
  ⟨⟨fontTable.toArray, rfl⟩, rfl⟩
theorem witness_OversizedRomHasNoLaunchState : 3584 < (List.replicate 3585 (0xFF : Byte)).length ∧
    (List.replicate 3584 (0xFF : Byte)).length ≤ 3584 :=
  ⟨by rw [List.length_replicate]; decide, by rw [List.length_replicate]⟩
theorem witness_ResetForgetsTheOldState : halted.FAULT = true ∧ (List.replicate 3584 (0xFF : Byte)).length ≤ 3584 :=
  ⟨rfl, by rw [List.length_replicate]⟩

-- O6: a running core and a halted one
theorem witness_StepKeepsTheInvariant_running : idle.Inv ∧ ∃ t, step idle = .next t :=
  ⟨⟨by decide, by decide, by decide, rfl, fun _ => ⟨rfl, rfl⟩, fun h => by cases h⟩, _, rfl⟩
theorem witness_StepKeepsTheInvariant_halted : halted.Inv ∧ ∃ t, step halted = .next t :=
  ⟨⟨by decide, by decide, by decide, rfl, fun h => (by cases h),
    fun _ => (by unfold legalFaultRecord; decide)⟩, _, rfl⟩

-- O8 to O11: a word with an ignored nibble and one without; both decoded forms; both families; unknown words
theorem witness_EncodeOfDecodeIsTheCanonicalWord : decode 0x512F = .known (.seReg 1 2) ∧
    decode 0x912F = .known (.sneReg 1 2) ∧ decode 0x801E = .known (.shl 0 1) := by decide
theorem witness_DecoderAgreesWithTheOpcodeMap : (⟨0xF00F, 0x800E⟩ : OpcodeRow) ∈ opcodeTable ∧
    (0x801E : Word) &&& 0xF00F = 0x800E ∧ decode 0x801E = .known (.shl 0 1) ∧ decode 0x801F = .unknown .family8 := by
  decide
theorem witness_UnknownWordsAreThoseOfRule98 : decode 0x00E1 = .unknown .family0 ∧ decode 0x8008 = .unknown .family8 ∧
    decode 0x800F = .unknown .family8 ∧ decode 0xE000 = .unknown .familyE ∧ decode 0xFFFF = .unknown .familyF := by decide
theorem witness_LowNibbleOfFamilies5And9IsIgnored : (0x512F : Word).extractLsb' 12 4 = 0x5 ∧
    (0x912F : Word).extractLsb' 12 4 = 0x9 := by decide

-- O13, O14: the last word of memory
theorem witness_StepRunsTheDecodedInstruction :
    let s := put { start [] with pc := 0xFFE } 0xFFE [0x60, 0x11]
    s.FAULT = false ∧ s.pc.toNat ≤ 0xFFE ∧
      decodeBytes (s.readByte s.pc.toNat) (s.readByte (s.pc.toNat + 1)) = .known (.ldImm 0 0x11) := by decide
theorem witness_StoredWordIsTheNextInstruction :
    let s := { start [] with pc := 0xFFE }
    s.memory.wf ∧ decode 0x6011 = .known (.ldImm 0 0x11) ∧ s.FAULT = false ∧ s.pc.toNat ≤ 0xFFE ∧
      ∃ t, exec (.ldImm 0 0x11) (s.withFetchWord 16 0x6011).beginCycle = .next t :=
  ⟨by decide, by decide, by decide, by decide, _, rfl⟩

-- O16 to O20: the last address that can be fetched and the first that cannot; the three ways a cycle ends
theorem witness_FetchIsBigEndianAndChecked : ({ start [] with pc := 0xFFE } : State).pc.toNat ≤ 0xFFE ∧
    ({ start [] with pc := 0xFFF } : State).FAULT = false ∧ 0xFFE < ({ start [] with pc := 0xFFF } : State).pc.toNat := by
  decide
theorem witness_UnknownWordIsAReportedNoOp : (start []).FAULT = false ∧ (start []).fetch = .ok 0x0000 ∧
    decode 0x0000 = .unknown .family0 := ⟨rfl, rfl, rfl⟩
theorem witness_CompletedCyclesTickTheTimersAndNoOthers_completed : idle.FAULT = false ∧ idle.fetch = .ok 0x1200 ∧
    ∃ t, runWord 0x1200 idle.beginCycle = .next t ∧ t.FAULT = false ∧ t.out.blocked = false :=
  ⟨rfl, rfl, _, rfl, rfl, rfl⟩
theorem witness_CompletedCyclesTickTheTimersAndNoOthers_blocked :
    ∃ t, runWord 0xF30A (start []).beginCycle = .next t ∧ t.out.blocked = true := ⟨_, rfl, rfl⟩
theorem witness_CompletedCyclesTickTheTimersAndNoOthers_faulted :
    ∃ t, runWord 0x00EE (start []).beginCycle = .next t ∧ t.FAULT = true := ⟨_, rfl, rfl⟩
theorem witness_HaltedCycleIsEmpty : halted.FAULT = true := rfl
theorem witness_FaultingCycleChangesOnlyTheFaultRegisters : (start []).FAULT = false ∧
    ∃ t, step ((start []).withFetchWord 16 0x00EE) = .next t ∧ t.FAULT = true := ⟨rfl, _, rfl, rfl⟩

-- O21: each fault an instruction raises
theorem witness_FaultIsRaisedOnlyByTheInstructionsOfRule230 : (start []).FAULT = false ∧
    (out (.ldB 0) { start [] with I := 0xFFE }).map (·.CAUSE) = some 1 ∧
    (out (.ldMemVx 1) { start [] with I := 0xFFF }).map (·.CAUSE) = some 1 ∧
    (out (.ldVxMem 1) { start [] with I := 0xFFF }).map (·.CAUSE) = some 1 ∧
    (out (.drw 0 1 1) { start [] with I := 0x1000 }).map (·.CAUSE) = some 1 ∧
    (out (.drw 0 1 1) (put { start [(1, 32)] with I := 0x300 } 0x300 [0x80])).map (·.CAUSE) = some 3 ∧
    (out (.skp 4) (start [(4, 16)])).map (·.CAUSE) = some 4 ∧
    (out (.sknp 4) (start [(4, 16)])).map (·.CAUSE) = some 4 ∧
    (out (.call 0) { start [] with sp := 16 }).map (·.CAUSE) = some 5 ∧
    (out .ret (start [])).map (·.CAUSE) = some 6 := by decide

-- O22, O23: a clear; a blocked cycle, an unknown word, a fault
theorem witness_DrawRequestExactlyForClearAndDraw : (start []).drawFlag = false ∧
    see (start []) 0x00E0 (·.out.drawReq) = some true ∧ see (start []) 0xD010 (·.out.drawReq) = some true := by decide
theorem witness_CycleOutcomesExcludeOneAnother : (start []).drawFlag = false ∧
    see (start []) 0xF00A (·.out.blocked) = some true ∧ see (start []) 0x0000 (·.out.unkValid) = some true ∧
    see (start []) 0x00EE (·.FAULT) = some true := by decide

-- O24
theorem witness_FinishedProgramStaysFinished : idle.Inv ∧ idle.finished :=
  ⟨witness_StepKeepsTheInvariant_running.1, rfl, 0x200, rfl, rfl⟩

-- O26 to O28: the first and the last entry of the stack, the empty and the full stack
theorem witness_ReturnPopsAndAddsTwo : 0 < ({ start [] with sp := 1 } : State).sp.val ∧
    0 < ({ start [] with sp := 16 } : State).sp.val ∧ (start []).sp.val = 0 := by decide
theorem witness_CallPushesItsOwnAddress : ({ start [] with sp := 15 } : State).sp.val < 16 ∧
    ({ start [] with sp := 16 } : State).sp.val = 16 := by decide
theorem witness_CallThenReturnComesBack : ({ start [] with sp := 15 } : State).sp.val < 16 ∧
    ∃ t, exec (.call 0x300) { start [] with sp := 15 } = .next t := ⟨by decide, _, rfl⟩

-- O38: the smallest legal byte; an instruction that is not RND, with another byte
theorem witness_RandomIsMaskedInput : (start []).inputs = [⟨0x0000, 0x01⟩] ∧ (start []).input.legal ∧
    (∀ x' kk', Instr.cls ≠ .rnd x' kk') ∧
    (∃ t, exec .cls ((start []).withInputs [⟨0x0000, 0x01⟩]) = .next t) ∧ (0x01 : Byte) ≠ 0xFF :=
  ⟨rfl, by decide, by simp, ⟨_, rfl⟩, by decide⟩

/-- The last eight pixels: `V[0]` = 56, `V[1]` = 31, the sprite byte at the last address. -/
def lastPixels : State := put { start [(0, 56), (1, 31)] with I := 0xFFF } 0xFFF [0xFF]

-- O39, O41: the draw vector `fb[2040..2047]`, from the last byte of memory
theorem witness_DrawXorsTheSpriteAndReportsCollision : (∀ r, r < (1 : Fin 16).val → lastPixels.I.toNat + r ≤ 0xFFF) ∧
    (∀ p, lastPixels.spriteCovers 0 1 (1 : Fin 16).val p → p ≤ 2047) ∧ lastPixels.spriteCovers 0 1 1 2047 ∧
    ¬ lastPixels.spriteCovers 0 1 1 2039 ∧ lastPixels.pixel 2047 = false ∧ (lit lastPixels [2047]).pixel 2047 = true := by
  have hx : (lastPixels.reg 0).toNat = 56 := by decide
  have hy : (lastPixels.reg 1).toNat = 31 := by decide
  refine ⟨by decide, fun p ⟨r, c, hr, hc, _, hp⟩ => ?_, ⟨0, 7, by decide, by decide, by unfold State.spriteBitSet; decide,
    by decide⟩, fun ⟨r, c, hr, hc, _, hp⟩ => ?_, by decide, by decide⟩
  · simp only [State.spritePixel, hx, hy] at hp
    have : r < 1 := hr
    omega
  · simp only [State.spritePixel, hx, hy] at hp
    omega
theorem witness_SpriteWithinBoundsNeverFaults : 0 < (1 : Fin 16).val ∧
    ((lastPixels.reg 0).toNat + 7) + ((lastPixels.reg 1).toNat + ((1 : Fin 16).val - 1)) * 64 ≤ 2047 ∧
    lastPixels.I.toNat + ((1 : Fin 16).val - 1) ≤ 0xFFF := by decide

-- O40: the row after the last byte of memory; the pixel after the last one, in the last column
theorem witness_DrawHaltsAtItsFirstBadAccess_memory :
    let s := put { start [] with I := 0xFFF } 0xFFF [0x80]
    1 < (2 : Fin 16).val ∧ (∀ q, q < 1 → s.I.toNat + q ≤ 0xFFF) ∧ (∀ p, s.spriteCovers 0 1 1 p → p ≤ 2047) ∧
      0xFFF < s.I.toNat + 1 := by
  have hx : ((put { start [] with I := 0xFFF } 0xFFF [0x80]).reg 0).toNat = 0 := by decide
  have hy : ((put { start [] with I := 0xFFF } 0xFFF [0x80]).reg 1).toNat = 0 := by decide
  refine ⟨by decide, by decide, fun p ⟨r, c, hr, hc, _, hp⟩ => ?_, by decide⟩
  simp only [State.spritePixel, hx, hy] at hp
  omega
theorem witness_DrawHaltsAtItsFirstBadAccess_pixel :
    let s := put { start [(0, 57), (1, 31)] with I := 0x300 } 0x300 [0xFF]
    0 < (1 : Fin 16).val ∧ (∀ p, ¬ s.spriteCovers 0 1 0 p) ∧ s.I.toNat + 0 ≤ 0xFFF ∧ s.spriteBitSet 0 7 ∧
      2047 < s.spritePixel 0 1 0 7 ∧ (∀ k, k < 7 → s.spritePixel 0 1 0 k ≤ 2047) := by
  refine ⟨by decide, fun p ⟨r, _, hr, _⟩ => by omega, by decide, by unfold State.spriteBitSet; decide, by decide, by decide⟩

-- O42, O43: the last key, the first index that names none; no key down, and only the last key down
theorem witness_KeySkipsReadTheNamedKey : ((start [(4, 15)]).reg 4).toNat ≤ 15 ∧ 15 < ((start [(4, 16)]).reg 4).toNat ∧
    (start []).inputs = [⟨0x0000, 0x01⟩] := by decide
theorem witness_KeyWaitBlocksOrTakesTheLowestKey_blocked :
    let s := (start []).withFetchWord 16 0xF30A
    s.FAULT = false ∧ s.fetch = .ok 0xF30A ∧ decode 0xF30A = .known (.ldVxK 3) ∧ ∀ k, k < 16 → s.keyDown k = false :=
  ⟨by decide, rfl, by decide, by decide⟩
theorem witness_KeyWaitBlocksOrTakesTheLowestKey_key : (given (start []) 0x8000 1).keyDown 15 = true ∧
    ∀ j, j < 15 → (given (start []) 0x8000 1).keyDown j = false := by decide

-- O44: an instruction that reads no key, with other keys
theorem witness_OnlyKeyInstructionsReadTheKeys : (∀ x, Instr.rnd 3 0x0F ≠ .skp x ∧ Instr.rnd 3 0x0F ≠ .sknp x ∧
    Instr.rnd 3 0x0F ≠ .ldVxK x) ∧ (⟨0x0000, 0x01⟩ : CycleInput).rnd = (⟨0xFFFF, 0x01⟩ : CycleInput).rnd ∧
    ∃ t, exec (.rnd 3 0x0F) ((start []).withInputs [⟨0x0000, 0x01⟩]) = .next t := ⟨by simp, rfl, _, rfl⟩

-- O46
theorem witness_TimerWrittenIsOneLowerAtTheCyclesEnd :
    ((start []).withFetchWord 16 0xF515).fetch = .ok 0xF515 ∧ decode 0xF515 = .known (.ldDTVx 5) ∧
    ((start []).withFetchWord 16 0xF218).fetch = .ok 0xF218 ∧ decode 0xF218 = .known (.ldSTVx 2) ∧
    ((start []).withFetchWord 16 0xF218).FAULT = false := ⟨rfl, rfl, rfl, rfl, rfl⟩

-- O47 to O50: the last range that fits and the first that does not
theorem witness_BcdStoresThreeDigits : (start []).memory.wf ∧ ({ start [] with I := 0xFFD } : State).ea 2 ≤ 0xFFF ∧
    0xFFF < ({ start [] with I := 0xFFE } : State).ea 2 := by decide
theorem witness_RegisterDumpStoresV0ToVx : (start []).memory.wf ∧
    ({ start [] with I := 0xFF0 } : State).ea (0xF : RegNum).val ≤ 0xFFF ∧
    0xFFF < ({ start [] with I := 0xFF1 } : State).ea (0xF : RegNum).val := by decide
theorem witness_RegisterLoadReadsV0ToVx : ({ start [] with I := 0xFF0 } : State).ea (0xF : RegNum).val ≤ 0xFFF ∧
    0xFFF < ({ start [] with I := 0xFF1 } : State).ea (0xF : RegNum).val := by decide
theorem witness_StoreIsSeenByTheNextFetch : (start []).memory.wf ∧
    ({ start [] with I := 0xFFE } : State).ea (1 : RegNum).val ≤ 0xFFF ∧ (1 : RegNum).val = (0 : RegNum).val + 1 ∧
    ∃ t, exec (.ldMemVx 1) { start [] with I := 0xFFE } = .next t := ⟨by decide, by decide, rfl, _, rfl⟩

-- O51 to O53: each named instruction does change what it is named for
theorem witness_OnlyNamedInstructionsWriteIndexStackAndTimers :
    (out (.ldI 0x2F0) (start [])).map (·.I) = some 0x2F0 ∧ (out (.addI 1) (start [(1, 1)])).map (·.I) = some 1 ∧
    (out (.ldF 1) (start [(1, 1)])).map (·.I) = some 5 ∧
    (out (.call 0x300) (start [])).map (fun t => (t.sp, t.stack[0])) = some (1, 0x200) ∧
    (out .ret { start [] with sp := 1 }).map (·.sp) = some 0 ∧
    (out (.ldDTVx 5) (start [(5, 9)])).map (·.DT) = some 9 ∧ (out (.ldSTVx 5) (start [(5, 9)])).map (·.ST) = some 9 := by
  decide
theorem witness_OnlyNamedInstructionsWriteMemoryAndPixels :
    (out (.ldB 1) { start [(1, 100)] with I := 0x300 }).map (·.memory) = some [(0x300, 1)] ∧
    (out (.ldMemVx 1) { start [(1, 100)] with I := 0x300 }).map (·.memory) = some [(0x301, 100)] ∧
    (out .cls (start [])).map (·.drawFlag) = some true ∧ (out (.drw 0 1 0) (start [])).map (·.drawFlag) = some true ∧
    (out (.drw 0 1 1) (start [])).map (·.pixel 0) = some true := by decide
theorem witness_OnlyNamedInstructionsWriteTheFlag :
    (out (.addReg 0 1) (start [(0, 0xFF), (1, 1)])).map (·.reg 0xF) = some 1 ∧
    (out (.ldImm 0xF 0x55) (start [])).map (·.reg 0xF) = some 0x55 ∧
    (out (.drw 0 1 1) (lit (start []) [0])).map (fun t => (t.pixel 0, t.FAULT, t.reg 0xF)) = some (false, false, 1) ∧
    (out (.drw 0 1 1) (start [])).map (fun t => (t.pixel 0, t.FAULT, t.reg 0xF)) = some (true, false, 0) := by decide

end Sys2Proof.Tests
end

section
/-! Launching with the default parameters: a core whose `FONT_TABLE` is the model's default and whose `MEM_FILL` is
0x00 is the core of `State.reset` (R7, R67; decisions D17, D18). -/

namespace Sys2Proof.Machine

/-- With the default table and fill 0x00, the reset image is what unlisted memory reads as. -/
theorem resetImage_eq_background {font : Vector Byte 80} (hfont : font.toList = fontTable) :
    resetImage font 0x00 = background := by
  funext a
  rw [resetImage, background, ← hfont, Vector.getElem?_toList]

/-- So memory lists nothing, as `State.reset` says, and no other field depends on the parameters. -/
theorem resetWith_eq_reset {font : Vector Byte 80} (hfont : font.toList = fontTable) :
    State.resetWith font 0x00 = State.reset := by
  rw [State.resetWith, resetImage_eq_background hfont, Memory.ofImage_background]
  rfl

theorem launchWith_eq_launch {font : Vector Byte 80} (hfont : font.toList = fontTable) (rom : List Byte) :
    launchWith font 0x00 rom = launch rom := by
  rw [launchWith, launch, resetWith_eq_reset hfont]

/-- The empty ROM places no byte, and reset already has `pc` at 0x200 (R41). -/
theorem launch_nil : launch [] = some State.reset :=
  loadRom_eq_some.mpr ⟨Nat.zero_le _, rfl⟩

/-- Settles O2: the default reset image is the background of memory, so both launches load into the same state. -/
theorem launchTakesTheDefaultFontAndZeroFill : Obligations.LaunchTakesTheDefaultFontAndZeroFill :=
  ⟨launch_nil, fun _ hfont rom => launchWith_eq_launch hfont rom⟩

end Sys2Proof.Machine
end

section
/-! What one instruction can do, said once: it completes in one of the ways of `Completes`, it blocks, or it raises a
fault of R230 and halts the core on the state before it. Which instruction writes what is read off from this. -/

namespace Sys2Proof

/-- The instructions that write `V[x]` and no flag (R150, R151, R160 to R163, R180, R202, R210). -/
def Instr.writesRegOnly (i : Instr) (x : RegNum) : Prop :=
  (∃ kk, i = .ldImm x kk ∨ i = .addImm x kk ∨ i = .rnd x kk) ∨
  (∃ y, i = .ldReg x y ∨ i = .orReg x y ∨ i = .andReg x y ∨ i = .xorReg x y) ∨
  i = .ldVxDT x ∨ i = .ldVxK x

/-- The instructions that write `V[x]` and then the flag (R164 to R168). -/
def Instr.writesRegAndFlag (i : Instr) (x : RegNum) : Prop :=
  ∃ y, i = .addReg x y ∨ i = .sub x y ∨ i = .shr x y ∨ i = .subn x y ∨ i = .shl x y

/-- The jumps other than call and return (R130, R132). -/
def Instr.jumps (i : Instr) : Prop := ∃ nnn, i = .jp nnn ∨ i = .jpV0 nnn

/-- The skips (R140 to R143, R200, R201). -/
def Instr.skips (i : Instr) : Prop :=
  (∃ x kk, i = .seImm x kk ∨ i = .sneImm x kk) ∨ (∃ x y, i = .seReg x y ∨ i = .sneReg x y) ∨
  ∃ x, i = .skp x ∨ i = .sknp x

/-- The instructions that write `I` (R24). -/
def Instr.writesIndex (i : Instr) : Prop :=
  (∃ nnn, i = .ldI nnn) ∨ (∃ x, i = .addI x) ∨ ∃ x, i = .ldF x

/-- The instructions that write main memory (R69). -/
def Instr.writesMemory (i : Instr) : Prop := (∃ x, i = .ldB x) ∨ ∃ x, i = .ldMemVx x

/-- The instructions that write the framebuffer and set `drawFlag` (R31, R32). -/
def Instr.draws (i : Instr) : Prop := i = .cls ∨ ∃ x y n, i = .drw x y n

end Sys2Proof

namespace Sys2Proof.Machine

/-- The faults an instruction raises in `s`, with the values they record (R230). -/
inductive Raises (s : State) : Instr → FaultRaise → Prop
  | dataAccess {i : Instr} {a : Nat} (hi : i.writesMemory ∨ (∃ x, i = .ldVxMem x) ∨ ∃ x y n, i = .drw x y n)
      (lo : 0x1000 ≤ a) (hi : a ≤ 0x1000E) : Raises s i ⟨.memoryFault, a⟩
  | pixelAccess (x y : RegNum) (n : Fin 16) {p : Nat} (lo : 2048 ≤ p) (hi : p ≤ 17478) :
      Raises s (.drw x y n) ⟨.framebufferFault, p⟩
  | keyIndex {i : Instr} {x : RegNum} (hi : i = .skp x ∨ i = .sknp x) (lo : 15 < (s.reg x).toNat) :
      Raises s i ⟨.keyIndexFault, (s.reg x).toNat⟩
  | overflow (nnn : BitVec 12) : Raises s (.call nnn) ⟨.stackOverflow, s.pc.toNat⟩
  | underflow : Raises s .ret ⟨.stackUnderflow, s.pc.toNat⟩

/-- The states an instruction that completes can leave, by what it writes besides `pc`. -/
inductive Completes (s : State) : Instr → State → Prop
  | clear : Completes s .cls ({ s with fb := blankFramebuffer, drawFlag := true } : State).advance
  | ret (h : 0 < s.sp.val) : Completes s .ret
      (({ s with sp := ⟨s.sp.val - 1, by omega⟩ } : State).jump (s.stack[s.sp.val - 1] + 2))
  | call (nnn : BitVec 12) (h : s.sp.val < 16) : Completes s (.call nnn)
      (({ s with stack := s.stack.set s.sp.val s.pc, sp := ⟨s.sp.val + 1, by omega⟩ } : State).jump (zext16 nnn))
  | jump {i : Instr} (hi : i.jumps) {w : Word} (h : w.toNat ≤ 0x10FE) : Completes s i (s.jump w)
  | skip {i : Instr} (hi : i.skips) (c : Bool) : Completes s i (s.skipIf c)
  | reg {i : Instr} {x : RegNum} (hi : i.writesRegOnly x) (v : Byte) : Completes s i (s.setReg x v).advance
  | regAndFlag {i : Instr} {x : RegNum} (hi : i.writesRegAndFlag x) (v : Byte) (f : Bool) :
      Completes s i (s.setResultAndFlag x v f).advance
  | index {i : Instr} (hi : i.writesIndex) (v : Word) : Completes s i ({ s with I := v } : State).advance
  | delay (x : RegNum) : Completes s (.ldDTVx x) ({ s with DT := s.reg x } : State).advance
  | sound (x : RegNum) : Completes s (.ldSTVx x) ({ s with ST := s.reg x } : State).advance
  | draw (x y : RegNum) (n : Fin 16) {d : Canvas}
      (hd : drawRows s (s.reg x) (s.reg y) ⟨s.fb, false⟩ (List.range n.val) = .ok d) :
      Completes s (.drw x y n) (({ s with fb := d.fb, drawFlag := true } : State).setFlag d.hit).advance
  | store {i : Instr} (hi : i.writesMemory) {m : Memory} (hm : s.memory.wf → m.wf) :
      Completes s i ({ s with memory := m } : State).advance
  | load (x : RegNum) {V : Vector Byte 16}
      (hV : ∀ r : RegNum, x.val < r.val → ({ s with V := V } : State).reg r = s.reg r) :
      Completes s (.ldVxMem x) ({ s with V := V } : State).advance

/-! ## Which of these an instruction does -/

theorem zext16_toNat_le (nnn : BitVec 12) : (zext16 nnn).toNat ≤ 0xFFF := by
  have := nnn.isLt
  simp only [zext16, BitVec.toNat_setWidth]; omega

/-- The largest target of `Bnnn` (R28, R132). -/
theorem indexedTarget_toNat_le (nnn : BitVec 12) (v : Byte) : (indexedTarget nnn v).toNat ≤ 0x10FE := by
  have := nnn.isLt; have := v.isLt
  simp only [indexedTarget, BitVec.toNat_ofNat]; omega

theorem raises_memoryFault_max (s : State) {i : Instr} (hi : i.writesMemory ∨ ∃ x, i = .ldVxMem x) :
    Raises s i ⟨.memoryFault, max s.I.toNat 0x1000⟩ := by
  have := s.I.isLt
  exact .dataAccess (hi.imp_right .inl) (by omega) (by omega)

/-- A draw's faults record an address or a pixel index in the range R230 gives. -/
theorem raises_of_drawRows {s : State} {x y : RegNum} {n : Fin 16} {d : Canvas} {e : FaultRaise}
    (h : drawRows s (s.reg x) (s.reg y) d (List.range n.val) = .error e) : Raises s (.drw x y n) e := by
  have hn := n.isLt
  rcases drawRows_error_cases s _ _ h with ⟨r, hr, lo, rfl⟩ | ⟨r, hr, c, hc, lo, rfl⟩ <;>
    have hr := List.mem_range.mp hr
  · have := s.I.isLt
    exact .dataAccess (.inr (.inr ⟨x, y, n, rfl⟩)) lo (by simp only [State.ea]; omega)
  · have := (s.reg x).isLt; have := (s.reg y).isLt
    exact .pixelAccess x y n lo (by simp only [pixelIndex]; omega)

/-- `Fx33` stores inside memory, so it keeps the canonical form (R62). -/
theorem storeBcd_wf {s : State} {v : Byte} {m : Memory} (hI : s.I.toNat + 2 ≤ 0xFFF)
    (h : storeBcd s v = .ok { s with memory := m }) (hw : s.memory.wf) : m.wf := by
  obtain ⟨m', hm', hw', -⟩ := storeBcd_ok v hI hw
  cases hm'.symm.trans h
  exact hw'

/-- `Fx55` stores inside memory, so it keeps the canonical form (R62). -/
theorem storeRegs_wf {s : State} {x : RegNum} {m : Memory} (hI : s.ea x.val ≤ 0xFFF)
    (h : storeRegs s (regsUpTo x) = .ok { s with memory := m }) (hw : s.memory.wf) : m.wf := by
  obtain ⟨m', hm', hw', -⟩ := storeRegs_ok (regsUpTo_nodup x) (s := s) (fun i hi => by
    have := mem_regsUpTo.mp hi
    simp only [State.ea] at hI ⊢; omega) hw
  cases hm'.symm.trans h
  exact hw'

/-- A key skip completes, or its register names no key (R200, R201). -/
theorem execSkp_cases (x : RegNum) (s : State) :
    ((s.reg x).toNat ≤ 15 ∧ exec (.skp x) s = .next (s.skipIf (s.keyDown (s.reg x).toNat)) ∧
      exec (.sknp x) s = .next (s.skipIf (!s.keyDown (s.reg x).toNat))) ∨
    (15 < (s.reg x).toNat ∧ exec (.skp x) s = .next (s.faultEntry ⟨.keyIndexFault, (s.reg x).toNat⟩) ∧
      exec (.sknp x) s = .next (s.faultEntry ⟨.keyIndexFault, (s.reg x).toNat⟩)) := by
  rcases keyIndex_cases (s.reg x) with ⟨hx, hk⟩ | ⟨hx, hk⟩
  · exact .inl ⟨hx, by simp [exec, execSkp, hk, ok_bind], by simp [exec, execSknp, hk, ok_bind]⟩
  · exact .inr ⟨hx, by simp [exec, execSkp, hk, error_bind], by simp [exec, execSknp, hk, error_bind]⟩

/-- `Fx0A` waits while no key is down, and else takes the key found (R202). -/
theorem execLdVxK_cases (x : RegNum) (s : State) :
    (s.firstKey = none ∧ exec (.ldVxK x) s = .next s.block) ∨
    ∃ k, s.firstKey = some k ∧ exec (.ldVxK x) s = .next (s.setReg x (BitVec.ofNat 8 k)).advance := by
  cases h : s.firstKey with
  | none => exact .inl ⟨rfl, by simp [exec, execLdVxK, h]⟩
  | some k => exact .inr ⟨k, rfl, by simp [exec, execLdVxK, h]⟩

/-- The three ways an instruction ends its part of the cycle. -/
def Ends (s : State) (i : Instr) (t : State) : Prop :=
  Completes s i t ∨ (∃ x, i = .ldVxK x ∧ s.firstKey = none ∧ t = s.block) ∨ ∃ e, Raises s i e ∧ t = s.faultEntry e

theorem exec_ends (i : Instr) (s : State) : ∃ t, exec i s = .next t ∧ Ends s i t := by
  cases i
  case cls => exact ⟨_, rfl, .inl .clear⟩
  case ret =>
    rcases execRet_cases s with ⟨h, he⟩ | ⟨-, he⟩
    · exact ⟨_, he, .inl (.ret h)⟩
    · exact ⟨_, he, .inr (.inr ⟨_, .underflow, rfl⟩)⟩
  case call nnn =>
    rcases execCall_cases nnn s with ⟨h, he⟩ | ⟨-, he⟩
    · exact ⟨_, he, .inl (.call nnn h)⟩
    · exact ⟨_, he, .inr (.inr ⟨_, .overflow nnn, rfl⟩)⟩
  case jp nnn => exact ⟨_, rfl, .inl (.jump ⟨nnn, by simp⟩ ((zext16_toNat_le nnn).trans (by decide)))⟩
  case jpV0 nnn => exact ⟨_, rfl, .inl (.jump ⟨nnn, by simp⟩ (indexedTarget_toNat_le nnn _))⟩
  case skp x =>
    rcases execSkp_cases x s with ⟨-, he, -⟩ | ⟨h, he, -⟩
    · exact ⟨_, he, .inl (.skip (by simp [Instr.skips]) _)⟩
    · exact ⟨_, he, .inr (.inr ⟨_, .keyIndex (.inl rfl) h, rfl⟩)⟩
  case sknp x =>
    rcases execSkp_cases x s with ⟨-, -, he⟩ | ⟨h, -, he⟩
    · exact ⟨_, he, .inl (.skip (by simp [Instr.skips]) _)⟩
    · exact ⟨_, he, .inr (.inr ⟨_, .keyIndex (.inr rfl) h, rfl⟩)⟩
  case ldVxK x =>
    rcases execLdVxK_cases x s with ⟨h, he⟩ | ⟨k, -, he⟩
    · exact ⟨_, he, .inr (.inl ⟨x, rfl, h, rfl⟩)⟩
    · exact ⟨_, he, .inl (.reg (by simp [Instr.writesRegOnly]) _)⟩
  case drw x y n =>
    rcases execDrw_cases x y n s with ⟨d, hd, he⟩ | ⟨e, hd, he⟩
    · exact ⟨_, he, .inl (.draw x y n hd)⟩
    · exact ⟨_, he, .inr (.inr ⟨e, raises_of_drawRows hd, rfl⟩)⟩
  case ldB x =>
    rcases execLdB_cases x s with ⟨h, m, hm, he⟩ | ⟨-, he⟩
    · exact ⟨_, he, .inl (.store (.inl ⟨x, rfl⟩) (storeBcd_wf h hm))⟩
    · exact ⟨_, he, .inr (.inr ⟨_, raises_memoryFault_max s (.inl (.inl ⟨x, rfl⟩)), rfl⟩)⟩
  case ldMemVx x =>
    rcases execLdMemVx_cases x s with ⟨h, m, hm, he⟩ | ⟨-, he⟩
    · exact ⟨_, he, .inl (.store (.inr ⟨x, rfl⟩) (storeRegs_wf h hm))⟩
    · exact ⟨_, he, .inr (.inr ⟨_, raises_memoryFault_max s (.inl (.inr ⟨x, rfl⟩)), rfl⟩)⟩
  case ldVxMem x =>
    rcases execLdVxMem_cases x s with ⟨-, V, he, -, hV⟩ | ⟨-, he⟩
    · exact ⟨_, he, .inl (.load x hV)⟩
    · exact ⟨_, he, .inr (.inr ⟨_, raises_memoryFault_max s (.inr ⟨x, rfl⟩), rfl⟩)⟩
  case ldDTVx x => exact ⟨_, rfl, .inl (.delay x)⟩
  case ldSTVx x => exact ⟨_, rfl, .inl (.sound x)⟩
  case ldI | addI | ldF => exact ⟨_, rfl, .inl (.index (by simp [Instr.writesIndex]) _)⟩
  case seImm | sneImm | seReg | sneReg => exact ⟨_, rfl, .inl (.skip (by simp [Instr.skips]) _)⟩
  case addReg | sub | shr | subn | shl =>
    exact ⟨_, rfl, .inl (.regAndFlag (by simp [Instr.writesRegAndFlag]) _ _)⟩
  case ldImm | addImm | rnd | ldReg | orReg | andReg | xorReg | ldVxDT =>
    exact ⟨_, rfl, .inl (.reg (by simp [Instr.writesRegOnly]) _)⟩

/-- Everything an instruction can do (R38 step 4). -/
theorem exec_cases {i : Instr} {s t : State} (h : exec i s = .next t) : Ends s i t := by
  obtain ⟨u, hu, hends⟩ := exec_ends i s
  cases hu.symm.trans h
  exact hends

end Sys2Proof.Machine
end

section
/-! What each field of the state can change by in one instruction, read off from `exec_cases`. -/

namespace Sys2Proof.Machine

namespace Completes

variable {s t : State} {i : Instr}

theorem out (h : Completes s i t) : t.out = s.out := by cases h <;> simp

theorem faultRegs (h : Completes s i t) : t.FAULT = s.FAULT ∧ t.CAUSE = s.CAUSE ∧ t.FINFO = s.FINFO := by
  cases h <;> simp

theorem index_or (h : Completes s i t) : t.I = s.I ∨ i.writesIndex := by
  cases h with
  | index hi v => exact .inr hi
  | _ => left; simp

theorem sp_or (h : Completes s i t) : t.sp = s.sp ∨ i = .ret ∨ ∃ nnn, i = .call nnn := by
  cases h with
  | ret => exact .inr (.inl rfl)
  | call nnn => exact .inr (.inr ⟨nnn, rfl⟩)
  | _ => left; simp

theorem stack_or (h : Completes s i t) : t.stack = s.stack ∨ ∃ nnn, i = .call nnn := by
  cases h with
  | call nnn => exact .inr ⟨nnn, rfl⟩
  | _ => left; simp

theorem delay_or (h : Completes s i t) : t.DT = s.DT ∨ ∃ x, i = .ldDTVx x := by
  cases h with
  | delay x => exact .inr ⟨x, rfl⟩
  | _ => left; simp

theorem sound_or (h : Completes s i t) : t.ST = s.ST ∨ ∃ x, i = .ldSTVx x := by
  cases h with
  | sound x => exact .inr ⟨x, rfl⟩
  | _ => left; simp

theorem memory_or (h : Completes s i t) : t.memory = s.memory ∨ i.writesMemory := by
  cases h with
  | store hi hm => exact .inr hi
  | _ => left; simp

theorem pixels_or (h : Completes s i t) : (t.fb = s.fb ∧ t.drawFlag = s.drawFlag) ∨ i.draws := by
  cases h with
  | clear => exact .inr (.inl rfl)
  | draw x y n hd => exact .inr (.inr ⟨x, y, n, rfl⟩)
  | _ => left; simp

/-- `V[0xF]` keeps its value but for the flag of the ALU and of a draw, and for writes to register 0xF (R22). -/
theorem flag_or (h : Completes s i t) : t.reg 0xF = s.reg 0xF ∨ (∃ x, i.writesRegAndFlag x) ∨
    (∃ x y n, i = .drw x y n) ∨ i.writesRegOnly 0xF ∨ i = .ldVxMem 0xF := by
  cases h with
  | @reg _ x hi v =>
    by_cases hx : 0xF = x
    · exact .inr (.inr (.inr (.inl (hx ▸ hi))))
    · exact .inl (s.reg_setReg_of_ne v hx)
  | regAndFlag hi v f => exact .inr (.inl ⟨_, hi⟩)
  | draw x y n hd => exact .inr (.inr (.inl ⟨x, y, n, rfl⟩))
  | load x hV =>
    by_cases hx : x = 0xF
    · exact .inr (.inr (.inr (.inr (by rw [hx]))))
    · exact .inl (hV 0xF (Fin.lt_last_iff_ne_last.mpr hx))
  | skip _ c => exact .inl (s.skipIf_reg c 0xF)
  | _ => left; rfl

end Completes

/-- Settles O51: what an instruction that completes writes; a blocked and a faulting one write none of these. -/
theorem onlyNamedInstructionsWriteIndexStackAndTimers :
    Obligations.OnlyNamedInstructionsWriteIndexStackAndTimers := by
  intro i s t h
  rcases exec_cases h with hc | ⟨_, -, -, rfl⟩ | ⟨_, -, rfl⟩
  · exact ⟨hc.index_or.resolve_left, hc.sp_or.resolve_left, hc.stack_or.resolve_left, hc.delay_or.resolve_left,
      hc.sound_or.resolve_left⟩
  · simp
  · simp

/-- Settles O52: what an instruction that completes writes; a blocked and a faulting one write none of these. -/
theorem onlyNamedInstructionsWriteMemoryAndPixels : Obligations.OnlyNamedInstructionsWriteMemoryAndPixels := by
  intro i s t h
  rcases exec_cases h with hc | ⟨_, -, -, rfl⟩ | ⟨_, -, rfl⟩
  · exact ⟨hc.memory_or.resolve_left,
      fun hne => hc.pixels_or.resolve_left fun ⟨hfb, hdraw⟩ => hne.elim (· hfb) (· hdraw)⟩
  · simp
  · simp

end Sys2Proof.Machine
end

section
/-! The ALU's result and flag as numbers (R164 to R168), the random byte, the key skips, and call then return. -/

namespace Sys2Proof.Machine

/-! ## Frames of the common shapes -/

theorem writesRegister_of_exec {i : Instr} {s : State} {x : RegNum} {v : Byte}
    (h : exec i s = .next (s.setReg x v).advance) : writesRegister i s x v :=
  ⟨_, h, by simp, fun r hr => by simpa using s.reg_setReg_of_ne v (List.ne_of_not_mem_cons hr), by simp,
    by simp [frameBut]⟩

theorem writesResultAndFlag_of_exec {i : Instr} {s : State} {x : RegNum} {v : Byte} {f : Bool}
    (h : exec i s = .next (s.setResultAndFlag x v f).advance) : writesResultAndFlag i s x v (Byte.ofBool f) := by
  refine ⟨_, h, by simp, fun hx => by simpa using s.reg_setResultAndFlag_result v f hx, fun r hr => ?_, by simp,
    by simp [frameBut]⟩
  obtain ⟨hx, hf⟩ : r ≠ x ∧ r ≠ 0xF := by simpa using hr
  simpa using s.reg_setResultAndFlag_other v f hx hf

/-- The flag is what such an instruction leaves in `V[0xF]`. -/
theorem writesResultAndFlag.flag_eq {i : Instr} {s t : State} {x : RegNum} {v f : Byte}
    (h : writesResultAndFlag i s x v f) (ht : exec i s = .next t) : t.reg 0xF = f := by
  obtain ⟨u, hu, hflag, -⟩ := h
  cases hu.symm.trans ht
  exact hflag

theorem writesPc_skipIf {i : Instr} {s : State} {c : Bool} (h : exec i s = .next (s.skipIf c)) :
    writesPc i s (if c then s.pc + 4 else s.pc + 2) :=
  ⟨_, h, s.skipIf_pc c, fun r _ => s.skipIf_reg c r, by simp [frameBut]⟩

/-! ## Flags and results as numbers -/

theorem ofBool_carryOf (a b : Byte) : Byte.ofBool (carryOf a b) = if a.toNat + b.toNat > 255 then 1 else 0 := by
  simp [Byte.ofBool, carryOf]

theorem ofBool_noBorrow (a b : Byte) : Byte.ofBool (noBorrow a b) = if a.toNat ≥ b.toNat then 1 else 0 := by
  simp [Byte.ofBool, noBorrow]

theorem ofBool_shiftedOutRight (a : Byte) : Byte.ofBool (shiftedOutRight a) = BitVec.ofNat 8 (a.toNat % 2) := by
  rw [shiftedOutRight, BitVec.getLsbD, Nat.testBit_zero]
  rcases Nat.mod_two_eq_zero_or_one a.toNat with h | h <;> simp [h, Byte.ofBool]

theorem ofBool_shiftedOutLeft (a : Byte) : Byte.ofBool (shiftedOutLeft a) = BitVec.ofNat 8 (a.toNat / 128) := by
  have hmod : a.toNat / 2 ^ 7 % 2 = a.toNat / 128 := by have := a.isLt; omega
  rw [shiftedOutLeft, BitVec.getLsbD, Nat.testBit_eq_decide_div_mod_eq, hmod]
  rcases (show a.toNat / 128 = 0 ∨ a.toNat / 128 = 1 by have := a.isLt; omega) with h | h <;> simp [h, Byte.ofBool]

theorem byte_add_eq (a b : Byte) : a + b = BitVec.ofNat 8 ((a.toNat + b.toNat) % 256) := by
  apply BitVec.eq_of_toNat_eq; simp

theorem byte_sub_eq (a b : Byte) : a - b = BitVec.ofNat 8 ((a.toNat + 256 - b.toNat) % 256) := by
  have := b.isLt
  apply BitVec.eq_of_toNat_eq; simp only [BitVec.toNat_sub, BitVec.toNat_ofNat]; omega

theorem byte_shiftRight_one_eq (a : Byte) : a >>> 1 = BitVec.ofNat 8 (a.toNat / 2) := by
  have := a.isLt
  apply BitVec.eq_of_toNat_eq; simp [Nat.shiftRight_eq_div_pow]; omega

theorem byte_shiftLeft_one_eq (a : Byte) : a <<< 1 = BitVec.ofNat 8 (a.toNat * 2 % 256) := by
  apply BitVec.eq_of_toNat_eq; simp [Nat.shiftLeft_eq]

/-! ## The five flag-writing ALU instructions -/

section
variable (s : State) (x y : RegNum)

theorem addReg_writes : writesResultAndFlag (.addReg x y) s x
    (BitVec.ofNat 8 (((s.reg x).toNat + (s.reg y).toNat) % 256))
    (if (s.reg x).toNat + (s.reg y).toNat > 255 then 1 else 0) := by
  rw [← byte_add_eq, ← ofBool_carryOf]
  exact writesResultAndFlag_of_exec rfl

theorem sub_writes : writesResultAndFlag (.sub x y) s x
    (BitVec.ofNat 8 (((s.reg x).toNat + 256 - (s.reg y).toNat) % 256))
    (if (s.reg x).toNat ≥ (s.reg y).toNat then 1 else 0) := by
  rw [← byte_sub_eq, ← ofBool_noBorrow]
  exact writesResultAndFlag_of_exec rfl

theorem subn_writes : writesResultAndFlag (.subn x y) s x
    (BitVec.ofNat 8 (((s.reg y).toNat + 256 - (s.reg x).toNat) % 256))
    (if (s.reg y).toNat ≥ (s.reg x).toNat then 1 else 0) := by
  rw [← byte_sub_eq, ← ofBool_noBorrow]
  exact writesResultAndFlag_of_exec rfl

theorem shr_writes : writesResultAndFlag (.shr x y) s x (BitVec.ofNat 8 ((s.reg x).toNat / 2))
    (BitVec.ofNat 8 ((s.reg x).toNat % 2)) := by
  rw [← byte_shiftRight_one_eq, ← ofBool_shiftedOutRight]
  exact writesResultAndFlag_of_exec rfl

theorem shl_writes : writesResultAndFlag (.shl x y) s x (BitVec.ofNat 8 ((s.reg x).toNat * 2 % 256))
    (BitVec.ofNat 8 ((s.reg x).toNat / 128)) := by
  rw [← byte_shiftLeft_one_eq, ← ofBool_shiftedOutLeft]
  exact writesResultAndFlag_of_exec rfl

end

/-! ## The flag of a draw -/

/-- The draw's flag says whether a pixel went from 1 to 0 (R189). -/
theorem execDrw_flag {s t : State} {x y : RegNum} {n : Fin 16} (h : exec (.drw x y n) s = .next t)
    (ht : t.FAULT = false) :
    ∃ hit : Bool, t.reg 0xF = Byte.ofBool hit ∧ (hit = true ↔ ∃ p, s.pixel p = true ∧ t.pixel p = false) := by
  rcases execDrw_cases x y n s with ⟨d, hd, he⟩ | ⟨e, -, he⟩ <;> cases he.symm.trans h
  · obtain ⟨hmem, hpix⟩ := drawRows_ok_range hd
    obtain ⟨d', hd', hX⟩ := drawRows_ok s (s.reg x) (s.reg y) List.nodup_range ⟨s.fb, false⟩ hmem hpix
    cases hd.symm.trans hd'
    refine ⟨d.hit, by simp [State.setFlag], hX.hit.trans ?_⟩
    simp only [Bool.false_eq_true, false_or]
    refine exists_congr fun p => ⟨fun ⟨hP, hset⟩ => ⟨hset, ?_⟩, fun ⟨hset, hclear⟩ => ⟨?_, hset⟩⟩
    · exact (hX.flipped p hP).trans (by simp [hset])
    · by_contra hP
      cases hset.symm.trans ((hX.kept p hP).symm.trans hclear)
  · simp at ht

/-! ## The obligations -/

/-- Settles O36: the machine's difference and its borrow test are those of numbers. -/
theorem subtractionsWriteDifferenceThenNoBorrow : Obligations.SubtractionsWriteDifferenceThenNoBorrow :=
  fun s x y => ⟨sub_writes s x y, subn_writes s x y⟩

/-- Settles O37: the machine's shifts halve and double, and bits 0 and 7 are the remainder and the quotient. -/
theorem shiftsWriteResultThenTheBitShiftedOut : Obligations.ShiftsWriteResultThenTheBitShiftedOut :=
  fun s x y => ⟨shr_writes s x y, shl_writes s x y⟩

/-- Settles O53: which instructions write `V[0xF]` at all, the values of the five ALU flags, and that of a draw. -/
theorem onlyNamedInstructionsWriteTheFlag : Obligations.OnlyNamedInstructionsWriteTheFlag := by
  refine ⟨fun i s t h hne => ?_, fun s t x y => ⟨?_, ?_, ?_, ?_, ?_⟩, fun s t x y n h _ ht => ?_⟩
  · rcases exec_cases h with hc | ⟨_, -, -, rfl⟩ | ⟨_, -, rfl⟩
    · rcases hc.flag_or.resolve_left hne with hi | hi | hi | hi
      · exact .inl hi
      · exact .inr (.inl hi)
      · obtain hi | hi | hi | hi := hi
        · exact .inr (.inr (.inl hi))
        · exact .inr (.inr (.inr (.inl hi)))
        · exact .inr (.inr (.inr (.inr (.inl hi))))
        · exact .inr (.inr (.inr (.inr (.inr (.inl hi)))))
      · exact .inr (.inr (.inr (.inr (.inr (.inr hi)))))
    · exact absurd rfl hne
    · exact absurd rfl hne
  · exact (addReg_writes s x y).flag_eq
  · exact (sub_writes s x y).flag_eq
  · exact (shr_writes s x y).flag_eq
  · exact (subn_writes s x y).flag_eq
  · exact (shl_writes s x y).flag_eq
  · obtain ⟨hit, hflag, hiff⟩ := execDrw_flag h ht
    rw [hflag, ← hiff]
    cases hit <;> simp [Byte.ofBool]

/-- Settles O42: an index up to 15 names a key, whose level decides the skip; above 15 the key index raises. -/
theorem keySkipsReadTheNamedKey : Obligations.KeySkipsReadTheNamedKey := by
  intro s x
  refine ⟨fun hx => ?_, fun hx => ?_, fun c cs hc k => by simp [State.keyDown, State.input, hc]⟩
  · rcases execSkp_cases x s with ⟨-, hskp, hsknp⟩ | ⟨hgt, -⟩
    · exact ⟨writesPc_skipIf hskp, by simpa using writesPc_skipIf hsknp⟩
    · omega
  · rcases execSkp_cases x s with ⟨hle, -⟩ | ⟨-, hskp, hsknp⟩
    · omega
    · exact ⟨hskp, hsknp⟩

/-- Settles O28: the call stores its address in the entry that the return reads. -/
theorem callThenReturnComesBack : Obligations.CallThenReturnComesBack := by
  intro s t nnn hsp h
  rcases execCall_cases nnn s with ⟨hlt, he⟩ | ⟨heq, -⟩
  · cases he.symm.trans h
    refine ⟨_, rfl, ?_, rfl, fun j hj => ?_, fun _ _ => rfl,
      by simp [frameBut, State.readByte, State.pixel]⟩
    · simp
    · exact Vector.getElem_set_ne hsp j.isLt hj.symm
  · omega

end Sys2Proof.Machine
end

section
/-! Which instructions read the host's inputs: every instruction commutes with a change of the schedule that keeps
the part of the cycle's input it reads (R36, R180, R203). -/

namespace Sys2Proof

/-- The instruction that reads the random byte (R180). -/
def Instr.readsRnd (i : Instr) : Prop := ∃ x kk, i = .rnd x kk

/-- The instructions that read the key levels (R203). -/
def Instr.readsKeys (i : Instr) : Prop := ∃ x, i = .skp x ∨ i = .sknp x ∨ i = .ldVxK x

end Sys2Proof

namespace Sys2Proof.Machine

variable {s t : State} {l : List CycleInput}

theorem State.withInputs_push (v : Word) : (s.withInputs l).push v = (s.push v).map (·.withInputs l) := by
  rcases s.push_cases v with ⟨h, hp⟩ | ⟨h, hp⟩ <;> rw [hp] <;> simp [State.push, h, Except.map, State.withInputs]

theorem State.withInputs_pop : (s.withInputs l).pop = s.pop.map fun r => (r.1, r.2.withInputs l) := by
  rcases s.pop_cases with ⟨h, hp⟩ | ⟨h, hp⟩ <;> rw [hp]
  · simp [State.pop, Nat.ne_of_gt h, Except.map, State.withInputs]
  · simp [State.pop, h, Except.map]

/-- An operation that answers alike under the new schedule, then one that carries the schedule along. -/
theorem map_bind_withInputs {α β : Type} {φ : α → β} (r : Except FaultRaise α) {f : α → Except FaultRaise State}
    {g : β → Except FaultRaise State} (h : ∀ a, g (φ a) = (f a).map (·.withInputs l)) :
    (r.map φ >>= g) = (r >>= f).map (·.withInputs l) := by
  cases r with
  | ok a => exact h a
  | error e => rfl

/-- What is computed from the state before the instruction, then committed. -/
theorem ok_bind_withInputs {α : Type} (r : Except FaultRaise α) (f : α → State) :
    (r >>= fun a => .ok ((f a).withInputs l)) = (r >>= fun a => .ok (f a)).map (·.withInputs l) := by
  cases r <;> rfl

theorem commit_eq_next_withInputs {r r' : Except FaultRaise State} (hr : r' = r.map (·.withInputs l))
    (h : s.commit r = .next t) : (s.withInputs l).commit r' = .next (t.withInputs l) :=
  hr ▸ State.withInputs_commit l h

theorem keyDown_withInputs (h : (s.withInputs l).input.keys = s.input.keys) :
    (s.withInputs l).keyDown = s.keyDown := by
  funext k
  simp [State.keyDown, h]

theorem firstKey_withInputs (h : (s.withInputs l).input.keys = s.input.keys) :
    (s.withInputs l).firstKey = s.firstKey := by
  simp [State.firstKey, keyDown_withInputs h]

theorem exec_withInputs {i : Instr} (hrnd : i.readsRnd → (s.withInputs l).input.rnd = s.input.rnd)
    (hkeys : i.readsKeys → (s.withInputs l).input.keys = s.input.keys) (h : exec i s = .next t) :
    exec i (s.withInputs l) = .next (t.withInputs l) := by
  cases i
  case rnd x kk =>
    cases h
    simp only [exec, execRnd, hrnd ⟨x, kk, rfl⟩]
    rfl
  case skp x =>
    refine commit_eq_next_withInputs ?_ h
    simp only [keyDown_withInputs (hkeys ⟨x, by simp⟩), State.withInputs_skipIf]
    exact ok_bind_withInputs (keyIndex (s.reg x)) fun k => s.skipIf (s.keyDown k)
  case sknp x =>
    refine commit_eq_next_withInputs ?_ h
    simp only [keyDown_withInputs (hkeys ⟨x, by simp⟩), State.withInputs_skipIf]
    exact ok_bind_withInputs (keyIndex (s.reg x)) fun k => s.skipIf (!s.keyDown k)
  case ldVxK x =>
    have hfirst := firstKey_withInputs (hkeys ⟨x, by simp⟩)
    simp only [exec, execLdVxK, hfirst] at h ⊢
    cases h
    cases s.firstKey <;> rfl
  case ret =>
    refine commit_eq_next_withInputs ?_ h
    rw [State.withInputs_pop]
    exact map_bind_withInputs s.pop fun _ => rfl
  case call nnn =>
    refine commit_eq_next_withInputs ?_ h
    rw [State.withInputs_push]
    exact map_bind_withInputs (s.push s.pc) fun _ => rfl
  case drw x y n =>
    refine commit_eq_next_withInputs ?_ h
    rw [drawRows_withInputs]
    exact ok_bind_withInputs (drawRows s (s.reg x) (s.reg y) ⟨s.fb, false⟩ (List.range n.val)) fun d =>
      (({ s with fb := d.fb, drawFlag := true } : State).setFlag d.hit).advance
  case ldB x =>
    refine commit_eq_next_withInputs ?_ h
    rw [storeBcd_withInputs]
    exact map_bind_withInputs (storeBcd s (s.reg x)) fun _ => rfl
  case ldMemVx x =>
    refine commit_eq_next_withInputs ?_ h
    rw [storeRegs_withInputs]
    exact map_bind_withInputs (storeRegs s (regsUpTo x)) fun _ => rfl
  case ldVxMem x =>
    refine commit_eq_next_withInputs ?_ h
    rw [loadRegs_withInputs]
    exact map_bind_withInputs (loadRegs s (regsUpTo x)) fun _ => rfl
  case seImm | sneImm | seReg | sneReg =>
    cases h
    exact congrArg _ (State.withInputs_skipIf ..)
  all_goals cases h; rfl

/-- Settles O38: `RND` writes the masked byte; the others do not read it, and the keys are kept. -/
theorem randomIsMaskedInput : Obligations.RandomIsMaskedInput := by
  refine fun s x kk => ⟨writesRegister_of_exec rfl, fun c cs hc => by rw [State.input, hc], fun hlegal h => ?_,
    fun i t c d cs hi hkeys h => ?_⟩
  · have hzero : s.input.rnd = 0 := by rwa [show (0xFF : Byte) = BitVec.allOnes 8 from rfl, BitVec.and_allOnes] at h
    simp [CycleInput.legal, hzero] at hlegal
  · exact exec_withInputs (s := s.withInputs (c :: cs)) (l := d :: cs) (fun ⟨x', kk', hr⟩ => absurd hr (hi x' kk'))
      (fun _ => hkeys.symm) h

/-- Settles O44: the other instructions do not read the keys, and the random byte is kept. -/
theorem onlyKeyInstructionsReadTheKeys : Obligations.OnlyKeyInstructionsReadTheKeys := by
  intro i s t c d cs hi hrnd h
  refine exec_withInputs (s := s.withInputs (c :: cs)) (l := d :: cs) (fun _ => hrnd.symm) ?_ h
  rintro ⟨x, hk⟩
  obtain ⟨hskp, hsknp, hwait⟩ := hi x
  exact absurd hk (by simp [hskp, hsknp, hwait])

end Sys2Proof.Machine
end

section
/-! How a cycle ends, said once: the five ways of `CycleEnds`. The invariant and the one-cycle outputs are read off
from it. -/

namespace Sys2Proof.Machine

/-! ## The record of a fault -/

/-- Every value R230 lets `FINFO` hold fits its 17 bits (R33). -/
theorem legalFaultRecord.info_lt {c : BitVec 3} {n : Nat} {pc : Nat} (h : legalFaultRecord c n pc) : n < 2 ^ 17 := by
  unfold legalFaultRecord at h
  omega

/-- An instruction inside memory leaves a record of R230. -/
theorem Raises.legal {s : State} {i : Instr} {e : FaultRaise} (h : Raises s i e) (hpc : s.pc.toNat ≤ 0xFFE) :
    legalFaultRecord e.kind.code e.info s.pc.toNat := by
  unfold legalFaultRecord
  cases h with
  | dataAccess _ lo hi => exact .inl ⟨rfl, lo, hi⟩
  | pixelAccess _ _ _ lo hi => exact .inr (.inr (.inl ⟨rfl, lo, hi⟩))
  | @keyIndex _ x _ lo => exact .inr (.inr (.inr (.inl ⟨rfl, lo, Nat.le_of_lt_succ (s.reg x).isLt⟩)))
  | overflow => exact .inr (.inr (.inr (.inr (.inl ⟨rfl, rfl, hpc⟩))))
  | underflow => exact .inr (.inr (.inr (.inr (.inr ⟨rfl, rfl, hpc⟩))))

/-- A fetch beyond memory leaves a record of R230. -/
theorem fetchFault_legal {s : State} (lo : 0xFFE < s.pc.toNat) (hi : s.pc.toNat ≤ 0x10FE) :
    legalFaultRecord FaultKind.fetchFault.code s.pc.toNat s.pc.toNat :=
  .inr (.inl ⟨rfl, rfl, lo, hi⟩)

theorem faultEntry_legal {s : State} {e : FaultRaise} (h : legalFaultRecord e.kind.code e.info s.pc.toNat) :
    legalFaultRecord (s.faultEntry e).CAUSE (s.faultEntry e).FINFO.toNat s.pc.toNat := by
  rwa [State.faultEntry_CAUSE, State.faultEntry_FINFO, BitVec.toNat_ofNat, Nat.mod_eq_of_lt h.info_lt]

/-! ## The ways a cycle ends -/

/-- The states a cycle from `s` can end in (R38): the empty cycle of a halted core; a fault of the fetch or of the
instruction; the blocked cycle of `Fx0A`; an unknown word; an instruction that completed. -/
inductive CycleEnds (s : State) : State → Prop
  | halted (h : s.FAULT = true) : CycleEnds s s.beginCycle.consumeInput
  | fault (h : s.FAULT = false) {e : FaultRaise}
      (he : s.pc.toNat ≤ 0x10FE → legalFaultRecord e.kind.code e.info s.pc.toNat) :
      CycleEnds s (s.beginCycle.faultEntry e).consumeInput
  | blocked (h : s.FAULT = false) {w : Word} (hw : s.fetch = .ok w) {x : RegNum} (hd : decode w = .known (.ldVxK x)) :
      CycleEnds s s.beginCycle.block.consumeInput
  | unknown (h : s.FAULT = false) {w : Word} (hw : s.fetch = .ok w) {f : UnknownFamily} (hd : decode w = .unknown f) :
      CycleEnds s (s.beginCycle.unknownInstruction w).timerTick.publishDraw.consumeInput
  | completed (h : s.FAULT = false) {w : Word} (hw : s.fetch = .ok w) {i : Instr} (hd : decode w = .known i)
      {t : State} (ht : exec i s.beginCycle = .next t) (hc : Completes s.beginCycle i t) :
      CycleEnds s t.timerTick.publishDraw.consumeInput

theorem step_ends {s u : State} (hstep : step s = .next u) : CycleEnds s u := by
  rcases step_cases hstep with ⟨h, rfl⟩ | ⟨h, hpc, rfl⟩ | ⟨h, w, t, hw, ht, rfl⟩
  · exact .halted h
  · rw [State.fetchFaultCycle, State.endCycle_stopped (.inl rfl)]
    exact .fault h (fetchFault_legal hpc)
  · cases hd : decode w with
    | unknown f =>
      rw [runWord_unknown hd] at ht
      cases ht
      rw [State.endCycle_completed (t := s.beginCycle.unknownInstruction w) h rfl]
      exact .unknown h hw hd
    | known i =>
      rw [runWord_known hd] at ht
      rcases exec_cases ht with hc | ⟨x, rfl, -, rfl⟩ | ⟨e, he, rfl⟩
      · rw [State.endCycle_completed (hc.faultRegs.1.trans h) (by rw [hc.out]; rfl)]
        exact .completed h hw hd ht hc
      · rw [State.endCycle_stopped (.inr rfl)]
        exact .blocked h hw hd
      · rw [State.endCycle_stopped (.inl rfl)]
        exact .fault h fun _ => he.legal (State.pc_le_of_fetch hw)

/-! ## The invariant -/

/-- The successor of an address inside memory (R28). -/
theorem toNat_add_two_le {pc : Word} (h : pc.toNat ≤ 0xFFE) : (pc + 2).toNat ≤ 0x10FE := by
  rw [BitVec.toNat_add]; simp; omega

namespace Completes

variable {s t : State} {i : Instr}

theorem memory_wf (h : Completes s i t) (hw : s.memory.wf) : t.memory.wf := by
  cases h with
  | store hi hm => exact hm hw
  | _ => simpa using hw

/-- Every stack entry is an old one or the address of the call (R28). -/
theorem stack_le (h : Completes s i t) (hpc : s.pc.toNat ≤ 0xFFE) (hs : ∀ j : Fin 16, (s.stack[j.val]).toNat ≤ 0xFFE)
    (j : Fin 16) : (t.stack[j.val]).toNat ≤ 0xFFE := by
  cases h with
  | call nnn hsp =>
    simp only [State.jump_stack, Vector.getElem_set]
    split
    · exact hpc
    · exact hs j
  | _ => simpa using hs j

/-- The farthest `pc` can go is the largest target of `Bnnn` (R28). -/
theorem pc_le (h : Completes s i t) (hpc : s.pc.toNat ≤ 0xFFE) (hs : ∀ j : Fin 16, (s.stack[j.val]).toNat ≤ 0xFFE) :
    t.pc.toNat ≤ 0x10FE := by
  cases h with
  | ret hsp =>
    have := hs ⟨s.sp.val - 1, by omega⟩
    rw [State.jump_pc, BitVec.toNat_add]; simp at this ⊢; omega
  | call nnn => exact (zext16_toNat_le nnn).trans (by decide)
  | jump _ hw => exact hw
  | skip _ c =>
    rw [State.skipIf_pc]
    split
    · rw [BitVec.toNat_add]; simp; omega
    · exact toNat_add_two_le hpc
  | _ => exact toNat_add_two_le hpc

end Completes

/-- The conjuncts of the invariant, way by way; a completed cycle fetched its instruction from inside memory. -/
theorem CycleEnds.inv {s u : State} (h : CycleEnds s u) (hs : s.Inv) : u.Inv := by
  obtain ⟨hmem, hpc, hstack, hdraw, hrun, hhalt⟩ := hs
  cases h with
  | halted hF => exact ⟨hmem, hpc, hstack, hdraw, hrun, hhalt⟩
  | fault hF he =>
    exact ⟨hmem, hpc, hstack, hdraw, fun hF' => (by cases hF'), fun _ => faultEntry_legal (s := s) (he hpc)⟩
  | blocked hF => exact ⟨hmem, hpc, hstack, hdraw, hrun, hhalt⟩
  | unknown hF hw =>
    have hfetch := State.pc_le_of_fetch hw
    exact ⟨hmem, toNat_add_two_le hfetch, hstack, rfl, fun _ => hrun hF,
      fun hF' => absurd (hF.symm.trans hF') (by simp)⟩
  | completed hF hw hd he hc =>
    have hfetch := State.pc_le_of_fetch hw
    obtain ⟨hFAULT, hCAUSE, hFINFO⟩ := hc.faultRegs
    exact ⟨hc.memory_wf hmem, hc.pc_le hfetch hstack, hc.stack_le hfetch hstack, rfl,
      fun _ => ⟨hCAUSE.trans (hrun hF).1, hFINFO.trans (hrun hF).2⟩,
      fun hF' => absurd (hFAULT.symm.trans hF') (by simp [hF])⟩

/-- Settles O6: however the cycle ends, each conjunct of the invariant is kept. -/
theorem stepKeepsTheInvariant : Obligations.StepKeepsTheInvariant :=
  fun _ _ hs hstep => (step_ends hstep).inv hs

/-! ## The one-cycle outputs -/

/-- A clear or a draw that does not halt the core sets `drawFlag` (R32). -/
theorem drawFlag_of_exec {s t : State} {i : Instr} (hi : i.draws) (h : exec i s = .next t) (hF : t.FAULT = false) :
    t.drawFlag = true := by
  rcases hi with rfl | ⟨x, y, n, rfl⟩
  · cases h; rfl
  · rcases execDrw_cases x y n s with ⟨d, -, he⟩ | ⟨e, -, he⟩ <;> cases he.symm.trans h
    · rfl
    · cases hF

/-- Settles O22: only a completed cycle publishes `drawFlag`, which its instruction set if it is a clear or a draw. -/
theorem drawRequestExactlyForClearAndDraw : Obligations.DrawRequestExactlyForClearAndDraw := by
  intro s u hdraw hstep
  cases step_ends hstep with
  | halted hF => exact ⟨hdraw, by simp [hF, Outputs.idle]⟩
  | fault hF he => exact ⟨hdraw, by simp [Outputs.idle]⟩
  | blocked hF hw hd => exact ⟨hdraw, by simp [Outputs.idle, hw, hd]⟩
  | unknown hF hw hd => exact ⟨rfl, by simp [hdraw, hw, hd]⟩
  | @completed hF w hw i hd t he hc =>
    have hFAULT : t.FAULT = false := hc.faultRegs.1.trans hF
    refine ⟨rfl, fun hreq => ⟨hF, hFAULT, w, hw, ?_⟩, fun ⟨_, _, w', hw', hi⟩ => ?_⟩
    · have hi : i.draws := hc.pixels_or.resolve_left fun h => absurd (h.2.symm.trans hreq) (by simp [hdraw])
      simpa [hd, Instr.draws] using hi
    · cases hw.symm.trans hw'
      have hset : t.drawFlag = true := drawFlag_of_exec (by simpa [hd, Instr.draws] using hi) he hFAULT
      exact hset

/-- Settles O23: the outputs of each way a cycle ends. -/
theorem cycleOutcomesExcludeOneAnother : Obligations.CycleOutcomesExcludeOneAnother := by
  intro s u hdraw hstep
  cases step_ends hstep with
  | halted hF => simp [Outputs.idle]
  | fault hF he => simp [Outputs.idle]
  | blocked hF hw hd => simp [Outputs.idle, hF]
  | unknown hF hw hd => simp [Outputs.idle, hF, hdraw]
  | completed hF hw hd he hc => simp [hc.out, hc.faultRegs, Outputs.idle, hF]

/-! ## The end of a cycle that fetched a word -/

@[simp] theorem State.endCycle_reg (t : State) (r : RegNum) : t.endCycle.reg r = t.reg r := by
  unfold State.endCycle; split <;> rfl

/-- The test of `beep` as one on numbers (R245). -/
theorem beq_one_eq (v : Byte) : (v == 1) = decide (v.toNat = 1) := by
  rw [Bool.eq_iff_iff, beq_iff_eq, decide_eq_true_iff, BitVec.toNat_eq]
  rfl

/-- Settles O18: the two ways `endCycle` goes; a cycle that stops has shown no `beep`. -/
theorem completedCyclesTickTheTimersAndNoOthers : Obligations.CompletedCyclesTickTheTimersAndNoOthers := by
  intro s t w hF hw ht
  refine ⟨t.endCycle, step_runWord hF hw ht, fun r _ => t.endCycle_reg r, fun hFt hb => ?_, fun hstop => ?_⟩
  · rw [State.endCycle_completed hFt hb]
    refine ⟨State.tickDown_toNat t.DT, State.tickDown_toNat t.ST, ?_, rfl, by simp [frameBut]⟩
    simp only [State.consumeInput_out, State.publishDraw_out, State.timerTick_out, State.timerTick_drawFlag, hb,
      beq_one_eq]
  · rw [State.endCycle_stopped hstop]
    refine ⟨?_, rfl, by simp [frameBut]⟩
    cases hd : decode w with
    | unknown f =>
      rw [runWord_unknown hd] at ht
      cases ht; rfl
    | known i =>
      rw [runWord_known hd] at ht
      rcases exec_out ht with hout | ⟨_, -, -, rfl⟩
      · simp [hout, Outputs.idle]
      · rfl

theorem step_known {s t : State} {w : Word} {i : Instr} (hF : s.FAULT = false) (hw : s.fetch = .ok w)
    (hd : decode w = .known i) (ht : exec i s.beginCycle = .next t) : step s = .next t.endCycle :=
  step_runWord hF hw ((runWord_known hd _).trans ht)

/-- Settles O46: the tick at the cycle's end sees the timer the instruction wrote. -/
theorem timerWrittenIsOneLowerAtTheCyclesEnd : Obligations.TimerWrittenIsOneLowerAtTheCyclesEnd := by
  refine fun s w x hF hw => ⟨fun hd => ?_, fun hd => ?_⟩
  · have hend := State.endCycle_completed (t := ({ s.beginCycle with DT := s.reg x } : State).advance) hF rfl
    exact ⟨_, (step_known hF hw hd rfl).trans (congrArg _ hend), State.tickDown_toNat (s.reg x)⟩
  · have hend := State.endCycle_completed (t := ({ s.beginCycle with ST := s.reg x } : State).advance) hF rfl
    refine ⟨_, (step_known hF hw hd rfl).trans (congrArg _ hend), State.tickDown_toNat (s.reg x), ?_⟩
    show (s.reg x == 1) = true ↔ _
    rw [beq_one_eq, decide_eq_true_iff]

/-- Settles O13: the fetched word is that of the two bytes at `pc`. -/
theorem stepRunsTheDecodedInstruction : Obligations.StepRunsTheDecodedInstruction := by
  intro s i hF hpc hd
  obtain ⟨t, ht⟩ := exec_next i s.beginCycle
  exact ⟨rfl, t, ht, step_known hF (s.fetch_ok hpc) hd ht⟩

/-- Settles O14: the placed word is fetched, and placing it stores two bytes. -/
theorem storedWordIsTheNextInstruction : Obligations.StoredWordIsTheNextInstruction := by
  intro s w i hwf hd
  rw [State.withFetchWord, tableWord_toNat]
  obtain ⟨hF, hfetch⟩ := State.fetch_placeWord hwf w
  refine ⟨by simp [decodeTableWord, decodeBytes, tableWord_toNat, wordOfBytes_bytesOfWord, hd],
    fun t ht => step_known hF hfetch hd ht, fun hrun hpc => ?_⟩
  rw [State.placeWord_running hrun hpc]
  refine ⟨fun _ _ => rfl, by simp [frameBut, State.pixel], fun a ha ha' => ?_⟩
  exact (Memory.read_write_of_ne _ ha' _).trans (Memory.read_write_of_ne _ ha _)

end Sys2Proof.Machine
end

section
/-! The state after reset and load (R41, R270 to R278): what a launch state holds, for every font, fill and ROM that
fits. -/

namespace Sys2Proof.Machine

variable {font : Vector Byte 80} {fill : Byte} {rom : List Byte} {s : State}

/-- A ROM that fits has its launch state: reset with memory loaded; `pc` is 0x200 in both (R276, R277). -/
theorem launchWith_eq_some (font : Vector Byte 80) (fill : Byte) (h : rom.length ≤ 3584) :
    launchWith font fill rom = some { State.resetWith font fill with
      memory := (State.resetWith font fill).memory.writeBytes Config.loadAddr rom } :=
  loadRom_eq_some.mpr ⟨h, rfl⟩

/-- Byte `k` of the ROM is at `0x200 + k` (R276). -/
theorem readByte_loadRom {t : State} (hw : s.memory.wf) (h : s.loadRom rom = some t) {k : Nat} (hk : k < rom.length) :
    t.readByte (0x200 + k) = rom[k] := by
  obtain ⟨hlen, rfl⟩ := loadRom_eq_some.mp h
  exact Memory.read_writeBytes hw (show 0x200 + rom.length ≤ 4096 by omega) hk

/-- A load leaves the bytes above the ROM as they were (R277). -/
theorem readByte_loadRom_of_ge {t : State} (h : s.loadRom rom = some t) {a : Nat} (ha : 0x200 + rom.length ≤ a) :
    t.readByte a = s.readByte a := by
  obtain ⟨-, rfl⟩ := loadRom_eq_some.mp h
  exact Memory.read_writeBytes_of_ge _ _ ha

/-- The font table is where R41 puts it. -/
theorem readByte_launchWith_font (h : launchWith font fill rom = some s) {a : Nat} (ha : a < 80) :
    s.readByte a = font[a] := by
  rw [readByte_loadRom_of_lt h (by omega), readByte_resetWith font fill (by omega), resetImage_font fill ha]

/-- Between font and ROM memory holds the fill (R41, decision D17). -/
theorem readByte_launchWith_gap (h : launchWith font fill rom = some s) {a : Nat} (ha : 80 ≤ a) (ha' : a < 0x200) :
    s.readByte a = fill := by
  rw [readByte_loadRom_of_lt h ha', readByte_resetWith font fill (by omega), resetImage_fill font fill ha]

theorem readByte_launchWith_rom (h : launchWith font fill rom = some s) {k : Nat} (hk : k < rom.length) :
    s.readByte (0x200 + k) = rom[k] :=
  readByte_loadRom (resetWith_wf font fill) h hk

/-- After the ROM memory holds the fill (R41, R277, decision D17). -/
theorem readByte_launchWith_rest (h : launchWith font fill rom = some s) {a : Nat} (ha : 0x200 + rom.length ≤ a)
    (ha' : a ≤ 0xFFF) : s.readByte a = fill := by
  rw [readByte_loadRom_of_ge h ha, readByte_resetWith font fill (by omega), resetImage_fill font fill (by omega)]

end Sys2Proof.Machine
end

section
namespace Sys2Proof.Machine

/-- Settles O1: every field but memory is that of reset; memory is read region by region. -/
theorem resetAndLoadHoldRule41Values : Obligations.ResetAndLoadHoldRule41Values := by
  intro font rom hrom
  have h := launchWith_eq_some font 0x00 hrom
  refine ⟨_, h, fun r => ?_, rfl, rfl, rfl, fun j => ?_, rfl, rfl, pixelOf_blank, rfl, rfl, rfl, rfl,
    fun a ha => readByte_launchWith_font h ha, fun a ha ha' => readByte_launchWith_gap h ha (by omega),
    fun k hk => readByte_launchWith_rom h hk, fun a ha ha' => readByte_launchWith_rest h ha ha', rfl⟩
  · exact Vector.getElem_replicate r.isLt
  · exact Vector.getElem_replicate j.isLt

/-- Settles O3: the default launch is that of some font with fill 0x00, whose bytes are known. -/
theorem oversizedRomHasNoLaunchState : Obligations.OversizedRomHasNoLaunchState := by
  intro rom
  obtain ⟨font, hfont⟩ : ∃ font : Vector Byte 80, font.toList = fontTable := ⟨⟨fontTable.toArray, rfl⟩, rfl⟩
  rw [← launchWith_eq_launch hfont]
  refine ⟨⟨fun hnone => ?_, fun hlen => ?_⟩, fun hlen => ?_⟩
  · by_contra hle
    rw [launchWith_eq_some font 0x00 (Nat.not_lt.mp hle)] at hnone
    cases hnone
  · rw [Option.eq_none_iff_forall_ne_some]
    intro s hs
    exact Nat.not_le.mpr hlen (loadRom_eq_some.mp hs).1
  · have h := launchWith_eq_some font 0x00 hlen
    exact ⟨_, h, rfl, fun k hk => readByte_launchWith_rom h hk, fun a ha ha' => readByte_launchWith_rest h ha ha'⟩

/-- Settles O4: what `assertReset` answers is the launch state but for the host's own two fields. -/
theorem resetForgetsTheOldState : Obligations.ResetForgetsTheOldState := by
  intro s font fill rom hrom
  have h := launchWith_eq_some font fill hrom
  exact ⟨_, _, assertReset_eq_some.mpr ⟨_, h, rfl⟩, h, rfl, fun a ha => readByte_launchWith_font h ha,
    fun k hk => readByte_launchWith_rom h hk, fun _ _ => rfl, by simp [frameBut, State.readByte, State.pixel]⟩

/-- Settles O5: memory lists nothing, and every other field of reset is a literal. -/
theorem resetMeetsTheInvariant : Obligations.ResetMeetsTheInvariant where
  memory_wf := Memory.wf_nil
  pc_le := by decide
  stack_le := by decide
  drawFlag_clear := rfl
  running_record _ := ⟨rfl, rfl⟩
  halted_record h := by cases h

end Sys2Proof.Machine
end

section
/-! Memory as the instruction stream: what a fetch reads, and that a register dump over the stream is what it reads
next (R63, R73, R74). -/

namespace Sys2Proof.Machine

/-- A dump whose last address is inside memory completes: each register up to `V[x]` is at its address, and every
other byte is as before (R221). -/
theorem execLdMemVx_stores {s : State} {x : RegNum} (hw : s.memory.wf) (hx : s.ea x.val ≤ 0xFFF) :
    ∃ m : Memory, exec (.ldMemVx x) s = .next ({ s with memory := m } : State).advance ∧
      (∀ i : RegNum, i.val ≤ x.val → m.read (s.ea i.val) = s.reg i) ∧
      (∀ a, (∀ i : RegNum, i.val ≤ x.val → a ≠ s.ea i.val) → m.read a = s.readByte a) := by
  have hin : ∀ i ∈ regsUpTo x, s.ea i.val ≤ 0xFFF := fun i hi =>
    (Nat.add_le_add_left (mem_regsUpTo.mp hi) _).trans hx
  obtain ⟨m, hm, -, hstored, hkept⟩ := storeRegs_ok (regsUpTo_nodup x) hin hw
  simp only [mem_regsUpTo] at hstored hkept
  rcases execLdMemVx_cases x s with ⟨-, m', hm', he⟩ | ⟨hgt, -⟩
  · cases hm.symm.trans hm'
    exact ⟨m, he, hstored, hkept⟩
  · omega

/-- A fetch at an address whose successor is inside memory reads the bytes at the two addresses (R63). -/
theorem fetch_jump (s : State) {a : Nat} (ha : a ≤ 0xFFE) :
    (s.jump (BitVec.ofNat 16 a)).fetch = .ok (wordOfBytes (s.readByte a) (s.readByte (a + 1))) := by
  have hpc : (s.jump (BitVec.ofNat 16 a)).pc.toNat = a := by
    rw [State.jump_pc, BitVec.toNat_ofNat, Nat.mod_eq_of_lt (by omega)]
  rw [State.fetch_ok _ (hpc.le.trans ha), hpc]
  rfl

/-- Settles O50: the two addresses fetched are those of `V[i]` and `V[i + 1]` in the dump. -/
theorem storeIsSeenByTheNextFetch : Obligations.StoreIsSeenByTheNextFetch := by
  intro s t x i j hw hx h hij hjx
  obtain ⟨m, he, hstored, -⟩ := execLdMemVx_stores hw hx
  cases he.symm.trans h
  have hsucc : s.ea i.val + 1 = s.ea j.val := by simp only [State.ea]; omega
  have hin : s.ea i.val ≤ 0xFFE := by simp only [State.ea] at hx ⊢; omega
  rw [fetch_jump _ hin, hsucc]
  exact congrArg Except.ok (congrArg₂ wordOfBytes (hstored i (by omega)) (hstored j hjx))

/-- Settles O16: inside memory the fetched word is that of two bytes; beyond it the cycle enters the fault. -/
theorem fetchIsBigEndianAndChecked : Obligations.FetchIsBigEndianAndChecked := by
  refine fun s => ⟨fun hpc => ⟨_, s.fetch_ok hpc, wordOfBytes_toNat _ _⟩, fun hF hpc => ?_⟩
  refine ⟨_, step_fetchFault hF hpc, ?_⟩
  rw [State.fetchFaultCycle, State.endCycle_stopped (.inl rfl)]
  refine ⟨rfl, rfl, ?_, fun _ _ => rfl, by simp [frameBut], rfl⟩
  rw [State.consumeInput_FINFO, State.faultEntry_FINFO, BitVec.toNat_ofNat]
  exact Nat.mod_eq_of_lt (s.pc.isLt.trans (by decide))

end Sys2Proof.Machine
end

section
/-! The decoder against the encoder and the opcode map (R92 to R98): a word as the encoding of its own fields, what
`decode` answers in each family, and the row a word selects. -/

namespace Sys2Proof

/-! ## The fields of a word make up the word -/

/-- The family as the four bits that a statement compares (R91). -/
theorem family_val_eq_iff {w : Word} {f : BitVec 4} : (family w).val = f.toNat ↔ w.extractLsb' 12 4 = f :=
  BitVec.toNat_inj

theorem encodeNNN_fields {w : Word} {f : BitVec 4} (hf : (family w).val = f.toNat) :
    encodeNNN f (fieldNNN w) = w := by
  apply BitVec.eq_of_toNat_eq
  rw [encodeNNN_toNat, fieldNNN_toNat, ← hf, family, nibbleAt_val]
  omega

theorem encodeXKK_fields {w : Word} {f : BitVec 4} (hf : (family w).val = f.toNat) {kk : Byte}
    (hkk : (fieldKK w).toNat = kk.toNat) : encodeXKK f (fieldX w) kk = w := by
  apply BitVec.eq_of_toNat_eq
  rw [encodeXKK_toNat, ← hkk, fieldKK_toNat, ← hf, family, fieldX, nibbleAt_val, nibbleAt_val]
  omega

theorem encodeXYN_fields {w : Word} {f n : BitVec 4} (hf : (family w).val = f.toNat)
    (hn : (fieldN w).val = n.toNat) : encodeXYN f (fieldX w) (fieldY w) n = w := by
  apply BitVec.eq_of_toNat_eq
  rw [encodeXYN_toNat, ← hf, ← hn, family, fieldX, fieldY, fieldN, nibbleAt_val, nibbleAt_val, nibbleAt_val,
    nibbleAt_val]
  omega

/-! ## Masks as fields -/

theorem encodeXYN_and_clear_low_nibble (f : BitVec 4) (x y : RegNum) (n : BitVec 4) :
    encodeXYN f x y n &&& 0xFFF0 = encodeXYN f x y 0x0 := by
  show (f ++ nibbleBits x ++ nibbleBits y ++ n) &&& (0xF#4 ++ 0xF#4 ++ 0xF#4 ++ 0#4) = (_ : BitVec (4 + 4 + 4 + 4))
  rw [BitVec.and_append, BitVec.and_append, BitVec.and_append, BitVec.and_zero,
    show (0xF#4) = BitVec.allOnes 4 from rfl, BitVec.and_allOnes, BitVec.and_allOnes, BitVec.and_allOnes]
  rfl

/-- A word with its low nibble cleared is the encoding of its other fields (R95). -/
theorem encodeXYN_fields_zero {w : Word} {f : BitVec 4} (hf : (family w).val = f.toNat) :
    encodeXYN f (fieldX w) (fieldY w) 0x0 = w &&& 0xFFF0 := by
  rw [← encodeXYN_and_clear_low_nibble f _ _ (w.extractLsb' 0 4), encodeXYN_fields hf rfl]

/-- The family's four bits are what the mask of the one-instruction families keeps (R93, R96). -/
theorem and_family_eq {w : Word} {f : BitVec 4} (hf : (family w).val = f.toNat) : w &&& 0xF000 = f ++ 0#12 := by
  rw [← encodeNNN_and_family f (fieldNNN w), encodeNNN_fields hf]

/-- Masking does not change the fields that lie inside the mask. -/
theorem family_eq_of_mask (w : Word) {m : Word} (hm : m.extractLsb' 12 4 = BitVec.allOnes 4) :
    (family w).val = (w &&& m).toNat / 4096 % 16 := by
  have h := nibbleAt_val (w &&& m) 12
  rwa [nibbleAt, BitVec.extractLsb'_and, hm, BitVec.and_allOnes] at h

theorem fieldN_eq_of_mask (w : Word) {m : Word} (hm : m.extractLsb' 0 4 = BitVec.allOnes 4) :
    (fieldN w).val = (w &&& m).toNat % 16 := by
  have h := nibbleAt_val (w &&& m) 0
  rwa [nibbleAt, BitVec.extractLsb'_and, hm, BitVec.and_allOnes, Nat.pow_zero, Nat.div_one] at h

theorem fieldKK_eq_of_mask (w : Word) {m : Word} (hm : m.extractLsb' 0 8 = BitVec.allOnes 8) :
    (fieldKK w).toNat = (w &&& m).toNat % 256 := by
  have h := fieldKK_toNat (w &&& m)
  rwa [fieldKK, BitVec.extractLsb'_and, hm, BitVec.and_allOnes] at h

/-! ## Families 5 and 9 do not look at the low nibble (R95) -/

theorem decode_family5 {w : Word} (h : (family w).val = 0x5) : decode w = .known (.seReg (fieldX w) (fieldY w)) := by
  simp [decode, h]

theorem decode_family9 {w : Word} (h : (family w).val = 0x9) : decode w = .known (.sneReg (fieldX w) (fieldY w)) := by
  simp [decode, h]

/-- Settles O11: the decoder's arms of the two families, their operands being the statement's bit fields. -/
theorem lowNibbleOfFamilies5And9IsIgnored : Obligations.LowNibbleOfFamilies5And9IsIgnored :=
  fun _ => ⟨fun h => decode_family5 (family_val_eq_iff.mpr h), fun h => decode_family9 (family_val_eq_iff.mpr h)⟩

/-! ## Decoding an encoding -/

/-- Format by format: the family and sub-opcode of an encoded word select the instruction, and its fields are the
operands (R91, R92). -/
theorem decode_encode (i : Instr) : decode (encode i) = .known i := by
  cases i
  case cls | ret => rfl
  case jp | call | ldI | jpV0 => simp [encode, decode, family_encodeNNN, fieldNNN_encodeNNN]
  case seImm | sneImm | ldImm | addImm | rnd =>
    simp [encode, decode, family_encodeXKK, fieldX_encodeXKK, fieldKK_encodeXKK]
  case skp | sknp =>
    simp [encode, decode, decodeFamilyE, family_encodeXKK, fieldX_encodeXKK, fieldKK_encodeXKK]
  case ldVxDT | ldVxK | ldDTVx | ldSTVx | addI | ldF | ldB | ldMemVx | ldVxMem =>
    simp [encode, decode, decodeFamilyF, family_encodeXKK, fieldX_encodeXKK, fieldKK_encodeXKK]
  case seReg | sneReg => simp [encode, decode, family_encodeXYN, fieldX_encodeXYN, fieldY_encodeXYN]
  case ldReg | orReg | andReg | xorReg | addReg | sub | shr | subn | shl =>
    simp [encode, decode, decodeFamily8, family_encodeXYN, fieldX_encodeXYN, fieldY_encodeXYN, fieldN_encodeXYN]
  case drw x y n =>
    have hn : fieldN (encodeXYN 0xD#4 x y (nibbleBits n)) = n :=
      Fin.ext ((fieldN_encodeXYN ..).trans (nibbleBits_toNat n))
    simp [encode, decode, family_encodeXYN, fieldX_encodeXYN, fieldY_encodeXYN, hn]

/-- Settles O7: no operand is lost in the word. -/
theorem decodeOfEncodeIsTheInstruction : Obligations.DecodeOfEncodeIsTheInstruction := decode_encode

/-! ## Encoding what was decoded

In the splits below, case `h_k` is the decoder's `k`-th arm; for `decode` that is family `k - 1`, the last arm being
family F because no other family is left. -/

theorem encode_of_decodeFamily0 {w : Word} {i : Instr} (h : decodeFamily0 w = .known i) : encode i = w := by
  unfold decodeFamily0 at h
  split_ifs at h with hcls hret
  · cases h; exact hcls.symm
  · cases h; exact hret.symm

theorem encode_of_decodeFamily8 {w : Word} {i : Instr} (hf : (family w).val = 0x8)
    (h : decodeFamily8 w = .known i) : encode i = w := by
  unfold decodeFamily8 at h
  split at h <;> cases h <;> exact encodeXYN_fields hf ‹_›

theorem encode_of_decodeFamilyE {w : Word} {i : Instr} (hf : (family w).val = 0xE)
    (h : decodeFamilyE w = .known i) : encode i = w := by
  unfold decodeFamilyE at h
  split at h <;> cases h <;> exact encodeXKK_fields hf ‹_›

theorem encode_of_decodeFamilyF {w : Word} {i : Instr} (hf : (family w).val = 0xF)
    (h : decodeFamilyF w = .known i) : encode i = w := by
  unfold decodeFamilyF at h
  split at h <;> cases h <;> exact encodeXKK_fields hf ‹_›

/-- Outside families 5 and 9 the decoder looks at every bit of the word. -/
theorem encode_of_decode {w : Word} {i : Instr} (h5 : (family w).val ≠ 0x5) (h9 : (family w).val ≠ 0x9)
    (h : decode w = .known i) : encode i = w := by
  have hlt := (family w).isLt
  unfold decode at h
  split at h
  case h_1 => exact encode_of_decodeFamily0 h
  case h_6 hf => exact absurd hf h5
  case h_9 hf => exact encode_of_decodeFamily8 hf h
  case h_10 hf => exact absurd hf h9
  case h_14 hf =>
    cases h
    exact encodeXYN_fields hf (nibbleBits_toNat _).symm
  case h_15 hf => exact encode_of_decodeFamilyE hf h
  case h_16 => exact encode_of_decodeFamilyF (by grind) h
  case h_2 hf | h_3 hf | h_11 hf | h_12 hf => cases h; exact encodeNNN_fields hf
  case h_4 hf | h_5 hf | h_7 hf | h_8 hf | h_13 hf => cases h; exact encodeXKK_fields hf rfl

/-- Settles O8: in families 5 and 9 the encoding has the word's `x` and `y`; elsewhere it is the word. -/
theorem encodeOfDecodeIsTheCanonicalWord : Obligations.EncodeOfDecodeIsTheCanonicalWord := by
  intro w i h
  simp only [← family_val_eq_iff]
  by_cases h5 : (family w).val = 0x5
  · cases h.symm.trans (decode_family5 h5)
    exact (encodeXYN_fields_zero h5).trans (if_pos (.inl h5)).symm
  by_cases h9 : (family w).val = 0x9
  · cases h.symm.trans (decode_family9 h9)
    exact (encodeXYN_fields_zero h9).trans (if_pos (.inr h9)).symm
  · exact (encode_of_decode h5 h9 h).trans (if_neg (not_or_intro h5 h9)).symm

/-! ## The row a word selects (R96) -/

/-- An instruction's word selects the instruction's own row: mask by mask, what is left of each format. -/
theorem encode_selects_rowOf (i : Instr) : encode i &&& (rowOf i).mask = (rowOf i).pattern := by
  cases i
  case cls | ret => rfl
  case jp | call | ldI | jpV0 => exact encodeNNN_and_family ..
  case seImm | sneImm | ldImm | addImm | rnd => exact encodeXKK_and_family ..
  case seReg | sneReg | drw => exact encodeXYN_and_family ..
  case ldReg | orReg | andReg | xorReg | addReg | sub | shr | subn | shl => exact encodeXYN_and_low_nibble ..
  case skp | sknp | ldVxDT | ldVxK | ldDTVx | ldSTVx | addI | ldF | ldB | ldMemVx | ldVxMem =>
    exact encodeXKK_and_low_byte ..

/-- A decoded word selects its instruction's row; the rows of families 5 and 9 mask the nibble that the decoder
ignores. -/
theorem selects_rowOf_of_decode {w : Word} {i : Instr} (h : decode w = .known i) :
    w &&& (rowOf i).mask = (rowOf i).pattern := by
  by_cases h5 : (family w).val = 0x5
  · cases h.symm.trans (decode_family5 h5)
    exact and_family_eq (f := 0x5) h5
  by_cases h9 : (family w).val = 0x9
  · cases h.symm.trans (decode_family9 h9)
    exact and_family_eq (f := 0x9) h9
  · rw [← encode_of_decode h5 h9 h]
    exact encode_selects_rowOf i

/-- A word that selects the row of `j` decodes to an instruction of that row: the mask keeps the bits that the
decoder compares. -/
theorem decode_of_selects_rowOf {w : Word} {j : Instr} (h : w &&& (rowOf j).mask = (rowOf j).pattern) :
    ∃ i, decode w = .known i ∧ rowOf i = rowOf j := by
  have hf : (family w).val = (rowOf j).pattern.toNat / 4096 % 16 :=
    h ▸ family_eq_of_mask w (by cases j <;> simp [rowOf])
  cases j
  case cls | ret =>
    have hw := (BitVec.and_allOnes (x := w)).symm.trans h
    exact ⟨_, hw ▸ rfl, rfl⟩
  case jp | call | seImm | sneImm | seReg | ldImm | addImm | sneReg | ldI | jpV0 | rnd | drw =>
    simp [decode, hf, rowOf]
  case ldReg | orReg | andReg | xorReg | addReg | sub | shr | subn | shl =>
    have hn := fieldN_eq_of_mask w (m := 0xF00F) rfl
    simp [decode, decodeFamily8, hf, hn.trans (congrArg (BitVec.toNat · % 16) h), rowOf]
  case skp | sknp =>
    have hkk := fieldKK_eq_of_mask w (m := 0xF0FF) rfl
    simp [decode, decodeFamilyE, hf, hkk.trans (congrArg (BitVec.toNat · % 256) h), rowOf]
  case ldVxDT | ldVxK | ldDTVx | ldSTVx | addI | ldF | ldB | ldMemVx | ldVxMem =>
    have hkk := fieldKK_eq_of_mask w (m := 0xF0FF) rfl
    simp [decode, decodeFamilyF, hf, hkk.trans (congrArg (BitVec.toNat · % 256) h), rowOf]

theorem rowOf_mem_opcodeTable (i : Instr) : rowOf i ∈ opcodeTable := by
  cases i <;> simp [opcodeTable, rowExamples, rowOf]

/-- Settles O9: a word selects exactly the row of the instruction it decodes to, so two selected rows are one, and
an unknown word selects none. -/
theorem decoderAgreesWithTheOpcodeMap : Obligations.DecoderAgreesWithTheOpcodeMap := by
  refine ⟨rfl, fun w r r' hr hr' h h' => ?_, rowOf_mem_opcodeTable, fun _ _ h => selects_rowOf_of_decode h,
    fun w f hd r hr h => ?_⟩
  · obtain ⟨j, -, rfl⟩ := List.mem_map.mp hr
    obtain ⟨j', -, rfl⟩ := List.mem_map.mp hr'
    obtain ⟨i, hd, hrow⟩ := decode_of_selects_rowOf h
    obtain ⟨i', hd', hrow'⟩ := decode_of_selects_rowOf h'
    cases hd.symm.trans hd'
    exact hrow.symm.trans hrow'
  · obtain ⟨j, -, rfl⟩ := List.mem_map.mp hr
    obtain ⟨i, hd', -⟩ := decode_of_selects_rowOf h
    cases hd.symm.trans hd'

/-! ## The unknown words (R98) -/

/-- The family each set of unknown words lies in. -/
def UnknownFamily.nibble : UnknownFamily → BitVec 4
  | .family0 => 0x0
  | .family8 => 0x8
  | .familyE => 0xE
  | .familyF => 0xF

/-- The decoder that a family with unknown words dispatches to (R94). -/
def UnknownFamily.decodeIn : UnknownFamily → Word → Decoded
  | .family0 => decodeFamily0
  | .family8 => decodeFamily8
  | .familyE => decodeFamilyE
  | .familyF => decodeFamilyF

/-- The high nibble selects the decoder of the family (R93). -/
theorem decode_eq_decodeIn {w : Word} {f : UnknownFamily} (hf : (family w).val = f.nibble.toNat) :
    decode w = f.decodeIn w := by
  cases f <;> simp [decode, UnknownFamily.decodeIn, UnknownFamily.nibble, hf]

theorem decodeFamily0_eq_unknown {w : Word} {g : UnknownFamily} :
    decodeFamily0 w = .unknown g ↔ .family0 = g ∧ w ≠ 0x00E0 ∧ w ≠ 0x00EE := by
  unfold decodeFamily0
  split_ifs with hcls hret
  · simp [hcls]
  · simp [hret]
  · exact ⟨fun h => ⟨Decoded.unknown.inj h, hcls, hret⟩, fun h => congrArg _ h.1⟩

theorem decodeFamily8_eq_unknown {w : Word} {g : UnknownFamily} :
    decodeFamily8 w = .unknown g ↔ .family8 = g ∧ (fieldN w).val ∈ [0x8, 0x9, 0xA, 0xB, 0xC, 0xD, 0xF] := by
  have hlt := (fieldN w).isLt
  unfold decodeFamily8
  split
  case h_10 => grind
  all_goals simp [*]

theorem decodeFamilyE_eq_unknown {w : Word} {g : UnknownFamily} :
    decodeFamilyE w = .unknown g ↔ .familyE = g ∧ (fieldKK w).toNat ∉ [0x9E, 0xA1] := by
  unfold decodeFamilyE
  split
  case h_3 => grind
  all_goals simp [*]

theorem decodeFamilyF_eq_unknown {w : Word} {g : UnknownFamily} :
    decodeFamilyF w = .unknown g ↔
      .familyF = g ∧ (fieldKK w).toNat ∉ [0x07, 0x0A, 0x15, 0x18, 0x1E, 0x29, 0x33, 0x55, 0x65] := by
  unfold decodeFamilyF
  split
  case h_10 =>
    simp only [List.mem_cons, List.not_mem_nil]
    grind
  all_goals simp [*]

/-- Unknown words exist only in the families that dispatch further (R98). -/
theorem decode_eq_unknown {w : Word} {f : UnknownFamily} :
    decode w = .unknown f ↔ w.extractLsb' 12 4 = f.nibble ∧ f.decodeIn w = .unknown f := by
  rw [← family_val_eq_iff]
  refine ⟨fun h => ?_, fun ⟨hf, h⟩ => (decode_eq_decodeIn hf).trans h⟩
  suffices hf : (family w).val = f.nibble.toNat from ⟨hf, (decode_eq_decodeIn hf).symm.trans h⟩
  have hlt := (family w).isLt
  unfold decode at h
  split at h
  case h_1 hf => rw [← (decodeFamily0_eq_unknown.mp h).1, hf]; rfl
  case h_9 hf => rw [← (decodeFamily8_eq_unknown.mp h).1, hf]; rfl
  case h_15 hf => rw [← (decodeFamilyE_eq_unknown.mp h).1, hf]; rfl
  case h_16 =>
    rw [← (decodeFamilyF_eq_unknown.mp h).1]
    show _ = 15
    grind
  all_goals cases h

/-- Settles O10: the high nibble selects the decoder of the family, and that decoder's default arm is the rest. -/
theorem unknownWordsAreThoseOfRule98 : Obligations.UnknownWordsAreThoseOfRule98 := by
  intro w
  simp only [decode_eq_unknown, UnknownFamily.decodeIn, decodeFamily0_eq_unknown, decodeFamily8_eq_unknown,
    decodeFamilyE_eq_unknown, decodeFamilyF_eq_unknown, true_and]
  exact ⟨Iff.rfl, Iff.rfl, Iff.rfl, Iff.rfl⟩

/-- Settles O12: the words of the test vectors, evaluated. -/
theorem wordsOfTheSpecDecodeAsWritten : Obligations.WordsOfTheSpecDecodeAsWritten := by
  unfold Obligations.WordsOfTheSpecDecodeAsWritten
  decide

end Sys2Proof

namespace Sys2Proof.Machine

/-- Settles O15: a halted core idles, a fetch beyond memory enters the fault, and every fetched word has a next
state. -/
theorem everyStepHasANextState : Obligations.EveryStepHasANextState := by
  intro s
  cases hF : s.FAULT with
  | true => exact ⟨_, step_halted hF⟩
  | false =>
    rcases Nat.lt_or_ge 0xFFE s.pc.toNat with hpc | hpc
    · exact ⟨_, step_fetchFault hF hpc⟩
    · obtain ⟨t, ht⟩ := runWord_next (wordOfBytes (s.readByte s.pc.toNat) (s.readByte (s.pc.toNat + 1))) s.beginCycle
      exact ⟨_, step_runWord hF (s.fetch_ok hpc) ht⟩

/-- Settles O17: the cycle runs R99 and ends as a completed one. -/
theorem unknownWordIsAReportedNoOp : Obligations.UnknownWordIsAReportedNoOp := by
  intro s w f hF hw hd
  have hstep := step_runWord hF hw (runWord_unknown hd s.beginCycle)
  rw [State.endCycle_completed (t := s.beginCycle.unknownInstruction w) hF rfl] at hstep
  exact ⟨_, hstep, rfl, rfl, rfl, rfl, State.tickDown_toNat s.DT, State.tickDown_toNat s.ST, fun _ _ => rfl,
    by simp [frameBut]⟩

end Sys2Proof.Machine
end

section
/-! Family 0 (R120, R121): clear screen and return, with what each leaves unchanged. -/

namespace Sys2Proof.Machine

/-- Settles O25: the clear replaces the framebuffer by the blank one without looking at it. -/
theorem clearScreenClearsAndSetsDrawFlag : Obligations.ClearScreenClearsAndSetsDrawFlag :=
  fun _ => ⟨_, rfl, pixelOf_blank, rfl, rfl, fun _ _ => rfl, by simp [frameBut, State.readByte]⟩

/-- Settles O26: the two ways a return ends; a pop moves `sp` and reads the entry below it. -/
theorem returnPopsAndAddsTwo : Obligations.ReturnPopsAndAddsTwo := by
  intro s
  rcases execRet_cases s with ⟨hsp, he⟩ | ⟨hsp, he⟩
  · exact ⟨fun _ => ⟨_, he, rfl, rfl, fun _ => rfl, fun _ _ => rfl, by simp [frameBut, State.readByte, State.pixel]⟩,
      fun h0 => by omega⟩
  · exact ⟨fun hpos => by omega, fun _ => he⟩

end Sys2Proof.Machine
end

section
/-! Families 1, 2 and B (R130 to R132): the two jumps, the call, and a program that ends in a jump to itself (R292). -/

namespace Sys2Proof.Machine

@[simp] theorem zext16_toNat (nnn : BitVec 12) : (zext16 nnn).toNat = nnn.toNat :=
  BitVec.toNat_setWidth_of_le (by decide)

theorem zext16_eq_ofNat (nnn : BitVec 12) : zext16 nnn = BitVec.ofNat 16 nnn.toNat :=
  (BitVec.ofNat_toNat 16 nnn).symm

theorem writesPc_jump {i : Instr} {s : State} {w : Word} (h : exec i s = .next (s.jump w)) : writesPc i s w :=
  ⟨_, h, rfl, fun _ _ => rfl, by simp [frameBut]⟩

/-- Settles O29: both meanings are one jump; the largest sum of `Bnnn` is 0xFFF + 0xFF. -/
theorem jumpsSetPcOnly : Obligations.JumpsSetPcOnly := by
  intro s nnn
  refine ⟨zext16_eq_ofNat nnn ▸ writesPc_jump rfl, writesPc_jump rfl, ?_⟩
  have := nnn.isLt; have := (s.reg 0).isLt
  omega

/-- Settles O27: the two ways a call ends; a push writes the entry at `sp` and moves `sp`. -/
theorem callPushesItsOwnAddress : Obligations.CallPushesItsOwnAddress := by
  intro s nnn
  rcases execCall_cases nnn s with ⟨hsp, he⟩ | ⟨hsp, he⟩
  · refine ⟨fun _ => ⟨_, he, rfl, zext16_toNat nnn, fun j => ?_, fun _ _ => rfl,
      by simp [frameBut, State.readByte, State.pixel]⟩, fun h16 => by omega⟩
    exact (Vector.getElem_set hsp j.isLt).trans (if_congr eq_comm rfl rfl)
  · exact ⟨fun hlt => by omega, fun _ => he⟩

/-- A jump to its own address leaves the state as it is (R130). -/
theorem exec_jp_self {s : State} {nnn : BitVec 12} (h : s.pc.toNat = nnn.toNat) : exec (.jp nnn) s = .next s := by
  have hpc : zext16 nnn = s.pc := BitVec.eq_of_toNat_eq ((zext16_toNat nnn).trans h.symm)
  calc exec (.jp nnn) s
    _ = .next (s.jump (zext16 nnn)) := rfl
    _ = .next (s.jump s.pc) := by rw [hpc]
    _ = .next s := rfl

/-- So a cycle of a finished program is the tick and the outputs of a completed cycle, and nothing else (R292). -/
theorem step_finished {s : State} (h : s.finished) :
    step s = .next s.beginCycle.timerTick.publishDraw.consumeInput := by
  obtain ⟨hF, nnn, hw, hpc⟩ := h
  rw [step_known hF hw (decode_encode _) (exec_jp_self (s := s.beginCycle) hpc),
    State.endCycle_completed (t := s.beginCycle) hF rfl]

/-- Settles O24: the cycle keeps what is fetched and where, and `drawFlag` was 0 already by the invariant. -/
theorem finishedProgramStaysFinished : Obligations.FinishedProgramStaysFinished := by
  intro s hs hfin
  have hdraw : s.drawFlag = false := hs.drawFlag_clear
  exact ⟨_, step_finished hfin, hfin, fun _ _ => rfl, by simp [frameBut, hdraw]⟩

end Sys2Proof.Machine
end

section
/-! Families 3, 4, 5 and 9 (R140 to R143): the skips on registers. -/

namespace Sys2Proof.Machine

/-- `writesPc_skipIf` with the condition in the rule's own terms, of which the machine's test is the Boolean. -/
theorem writesPc_skipIf_of_iff {i : Instr} {s : State} {c : Bool} {p : Prop} [Decidable p]
    (hp : c = true ↔ p) (h : exec i s = .next (s.skipIf c)) : writesPc i s (if p then s.pc + 4 else s.pc + 2) :=
  if_congr hp rfl rfl ▸ writesPc_skipIf h

/-- Settles O30: both meanings are one skip, and the Boolean tests of `V[x]` and `kk` decide `=` and `≠`. -/
theorem immediateSkipsFollowTheComparison : Obligations.ImmediateSkipsFollowTheComparison :=
  fun _ _ _ => ⟨writesPc_skipIf_of_iff beq_iff_eq rfl, writesPc_skipIf_of_iff bne_iff_ne rfl⟩

/-- Settles O31: as for the immediate skips, with `V[y]` in place of `kk`. -/
theorem registerSkipsFollowTheComparison : Obligations.RegisterSkipsFollowTheComparison :=
  fun _ _ _ => ⟨writesPc_skipIf_of_iff beq_iff_eq rfl, writesPc_skipIf_of_iff bne_iff_ne rfl⟩

end Sys2Proof.Machine
end

section
/-! Families 6, 7 and A, with `Fx1E` and `Fx29` (R150 to R152, R213, R214): immediate loads and sums, and the writes
of the index register. -/

namespace Sys2Proof.Machine

/-- Settles O32: both meanings are one register write, and the sum of bytes wraps modulo 256. -/
theorem immediateLoadAndAddWriteOneRegister : Obligations.ImmediateLoadAndAddWriteOneRegister :=
  fun s x kk => ⟨writesRegister_of_exec rfl, byte_add_eq (s.reg x) kk ▸ writesRegister_of_exec rfl⟩

/-! ## The index as a number -/

/-- The sum of `Fx1E` wraps at the register's 16 bits, not at an address's 12 (R213, D20). -/
theorem index_add_byte_toNat (w : Word) (v : Byte) : (w + v.setWidth 16).toNat = (w.toNat + v.toNat) % 65536 := by
  rw [BitVec.toNat_add, BitVec.toNat_setWidth_of_le (by decide)]

/-- The largest product of `Fx29` is 255 * 5, so none wraps (R214). -/
theorem glyphAddress_toNat (v : Byte) : (glyphAddress v).toNat = v.toNat * 5 := by
  have := v.isLt
  exact Nat.mod_eq_of_lt (by simp only [Config.glyphBytes]; omega)

theorem writesIndex_of_exec {i : Instr} {s : State} {v : Word} {n : Nat} (hv : v.toNat = n)
    (h : exec i s = .next ({ s with I := v } : State).advance) :
    ∃ t, exec i s = .next t ∧ t.I.toNat = n ∧ t.pc = s.pc + 2 ∧ regsBut [] s t ∧ frameBut [.pc, .index] s t :=
  ⟨_, h, hv, rfl, fun _ _ => rfl, by simp [frameBut, State.readByte, State.pixel]⟩

/-- Settles O33: each meaning is one write of `I`, of a value known as a number. -/
theorem indexLoadsAndSums : Obligations.IndexLoadsAndSums :=
  fun s nnn x => ⟨writesIndex_of_exec (zext16_toNat nnn) rfl,
    writesIndex_of_exec (index_add_byte_toNat s.I (s.reg x)) rfl,
    writesIndex_of_exec (glyphAddress_toNat (s.reg x)) rfl⟩

end Sys2Proof.Machine
end

section
/-! Family 8 (R160 to R164): the copy, the logic operations and the sum. -/

namespace Sys2Proof.Machine

/-- Settles O34: each meaning is one register write, of the rule's own value; none of them reaches `V[0xF]` but as
`V[x]`. -/
theorem movesAndLogicWriteOneRegister : Obligations.MovesAndLogicWriteOneRegister :=
  fun _ _ _ => ⟨writesRegister_of_exec rfl, writesRegister_of_exec rfl, writesRegister_of_exec rfl,
    writesRegister_of_exec rfl⟩

/-- Settles O35: the machine's sum of bytes and its carry are those of numbers. -/
theorem addWritesSumThenCarry : Obligations.AddWritesSumThenCarry := addReg_writes

end Sys2Proof.Machine
end

section
/-! Family D (R185 to R189, R238): a draw completes as the XOR of what its sprite covers, or halts at its first access
out of range. -/

namespace Sys2Proof.Machine

/-- What the machine's rows cover is what the rule's sprite covers (R186, R187, D28). -/
theorem rowsCover_range_iff {s : State} {x y : RegNum} {n p : Nat} :
    rowsCover s (s.reg x) (s.reg y) (List.range n) p ↔ s.spriteCovers x y n p := by
  constructor
  · rintro ⟨r, hr, c, hc, hbit, hp⟩
    exact ⟨r, c, List.mem_range.mp hr, mem_spriteColumns.mp hc, hbit, hp⟩
  · rintro ⟨r, c, hr, hc, hbit, hp⟩
    exact ⟨r, List.mem_range.mpr hr, c, mem_spriteColumns.mpr hc, hbit, hp⟩

/-- A range splits at each of its members, the smaller ones before it. -/
theorem range_split_at {r n : Nat} (h : r < n) : ∃ post, List.range n = List.range r ++ r :: post := by
  obtain ⟨m, rfl⟩ := Nat.exists_eq_add_of_lt h
  exact ⟨_, by rw [Nat.add_assoc, List.range_add, List.range_succ_eq_map, List.map_cons, Nat.add_zero]⟩

/-- A draw whose accesses are all in range completes with the XOR of what its sprite covers (R185). -/
theorem execDrw_completes {s : State} {x y : RegNum} {n : Fin 16} (hmem : ∀ r, r < n.val → s.I.toNat + r ≤ 0xFFF)
    (hpix : ∀ p, s.spriteCovers x y n.val p → p ≤ 2047) :
    ∃ d : Canvas, Xors ⟨s.fb, false⟩ d (s.spriteCovers x y n.val) ∧
      exec (.drw x y n) s = .next (({ s with fb := d.fb, drawFlag := true } : State).setFlag d.hit).advance := by
  obtain ⟨d, hd, hX⟩ := drawRows_ok s (s.reg x) (s.reg y) List.nodup_range ⟨s.fb, false⟩
    (fun r hr => hmem r (List.mem_range.mp hr)) fun p hp => hpix p (rowsCover_range_iff.mp hp)
  have hcover : rowsCover s (s.reg x) (s.reg y) (List.range n.val) = s.spriteCovers x y n.val :=
    funext fun _ => propext rowsCover_range_iff
  rcases execDrw_cases x y n s with ⟨d', hd', he⟩ | ⟨e, hd', -⟩ <;> cases hd.symm.trans hd'
  exact ⟨d, hcover ▸ hX, he⟩

/-- A draw whose rows before row `r` are in range halts with the fault of row `r` (R185, R238). -/
theorem execDrw_faults {s : State} {x y : RegNum} {n : Fin 16} {r : Nat} {e : FaultRaise} (hr : r < n.val)
    (hmem : ∀ q, q < r → s.I.toNat + q ≤ 0xFFF) (hpix : ∀ p, s.spriteCovers x y r p → p ≤ 2047)
    (hrow : ∀ d post, drawRows s (s.reg x) (s.reg y) d (r :: post) = .error e) :
    exec (.drw x y n) s = .next (s.faultEntry e) := by
  obtain ⟨post, hsplit⟩ := range_split_at hr
  have hd : drawRows s (s.reg x) (s.reg y) ⟨s.fb, false⟩ (List.range n.val) = .error e :=
    hsplit ▸ drawRows_error s _ _ _ List.nodup_range (fun q hq => hmem q (List.mem_range.mp hq))
      (fun p hp => hpix p (rowsCover_range_iff.mp hp)) fun d => hrow d post
  rcases execDrw_cases x y n s with ⟨d, hd', -⟩ | ⟨e', hd', he⟩ <;> cases hd.symm.trans hd'
  exact he

/-- A row whose byte is outside memory raises the memory fault before any pixel (R185, R238). -/
theorem drawRows_memoryFault {s : State} {r : Nat} (h : 0xFFF < s.ea r) (vx vy : Byte) (d : Canvas) (post : List Nat) :
    drawRows s vx vy d (r :: post) = .error ⟨.memoryFault, s.ea r⟩ := by
  simp only [drawRows, s.memRead_error h, error_bind]

/-- A row in memory raises the framebuffer fault of its first set bit outside the framebuffer (R188, R238). -/
theorem drawRows_framebufferFault {s : State} {x y : RegNum} {r c : Nat} (hmem : s.ea r ≤ 0xFFF) (hc : c < 8)
    (hbit : s.spriteBitSet r c) (hout : 2047 < s.spritePixel x y r c)
    (hpre : ∀ k, k < c → s.spriteBitSet r k → s.spritePixel x y r k ≤ 2047) (d : Canvas) (post : List Nat) :
    drawRows s (s.reg x) (s.reg y) d (r :: post) = .error ⟨.framebufferFault, s.spritePixel x y r c⟩ := by
  obtain ⟨right, hsplit⟩ : ∃ right, spriteColumns = List.range c ++ c :: right := range_split_at hc
  have hrow : drawRow (s.reg x) (s.reg y) r (s.readByte (s.ea r)) d spriteColumns =
      .error ⟨.framebufferFault, s.spritePixel x y r c⟩ :=
    hsplit ▸ drawRow_error _ _ r _ d (fun k hk => hpre k (List.mem_range.mp hk)) hbit hout
  simp only [drawRows, s.memRead_ok hmem, ok_bind, hrow, error_bind]

/-- Settles O39: the XOR of what the sprite covers, and its hit in `V[0xF]`. -/
theorem drawXorsTheSpriteAndReportsCollision : Obligations.DrawXorsTheSpriteAndReportsCollision := by
  intro s x y n hmem hpix
  obtain ⟨d, hX, he⟩ := execDrw_completes hmem hpix
  have hhit : (∃ p, s.spriteCovers x y n.val p ∧ s.pixel p = true) ↔ d.hit = true :=
    (or_iff_right Bool.false_ne_true).symm.trans hX.hit.symm
  refine ⟨_, he, hX.flipped, hX.kept, fun hset => ?_, fun hclear => ?_, rfl, rfl, fun r hr => ?_,
    by simp [frameBut, State.readByte]⟩
  · simp [State.setFlag, Byte.ofBool, hhit.mp hset]
  · simp [State.setFlag, Byte.ofBool, mt hhit.mpr hclear]
  · exact State.reg_setReg_of_ne _ _ (List.ne_of_not_mem_cons hr)

/-- Settles O40: the first row that raises decides; in it the byte comes first, then the first bad column. -/
theorem drawHaltsAtItsFirstBadAccess : Obligations.DrawHaltsAtItsFirstBadAccess := by
  intro s x y n r hr hmem hpix
  exact ⟨fun hout => execDrw_faults hr hmem hpix (drawRows_memoryFault hout _ _),
    fun c hc hin hbit hout hpre =>
      execDrw_faults hr hmem hpix (drawRows_framebufferFault hin hc hbit hout hpre)⟩

/-- Settles O41: no access of the sprite goes beyond its last byte and the last pixel of its last row. -/
theorem spriteWithinBoundsNeverFaults : Obligations.SpriteWithinBoundsNeverFaults := by
  intro s x y n hn hlast hI
  have hpix : ∀ p, s.spriteCovers x y n.val p → p ≤ 2047 := by
    rintro p ⟨r, c, hr, hc, -, rfl⟩
    simp only [State.spritePixel]; omega
  obtain ⟨d, -, he⟩ := execDrw_completes (s := s) (fun r hr => by omega) hpix
  exact ⟨_, he, rfl, rfl, rfl⟩

end Sys2Proof.Machine
end

section
/-! `Fx0A` (R202): the blocked cycle, which only reports itself, and the lowest key down. -/

namespace Sys2Proof.Machine

/-- A key that is down, with no lower key down, is the key found (R202, D13). -/
theorem State.firstKey_of_lowest {s : State} {k : Nat} (hk : k < 16) (hdown : s.keyDown k = true)
    (hlow : ∀ j, j < k → s.keyDown j = false) : s.firstKey = some k :=
  List.find?_range_eq_some.mpr ⟨hdown, List.mem_range.mpr hk, fun j hj => by simp [hlow j hj]⟩

theorem execLdVxK_of_none {s : State} (x : RegNum) (h : s.firstKey = none) : exec (.ldVxK x) s = .next s.block := by
  rcases execLdVxK_cases x s with ⟨-, he⟩ | ⟨k, hk, -⟩
  · exact he
  · cases h.symm.trans hk

theorem execLdVxK_of_some {s : State} {k : Nat} (x : RegNum) (h : s.firstKey = some k) :
    exec (.ldVxK x) s = .next (s.setReg x (BitVec.ofNat 8 k)).advance := by
  rcases execLdVxK_cases x s with ⟨hnone, -⟩ | ⟨k', hk', he⟩
  · cases h.symm.trans hnone
  · cases h.symm.trans hk'
    exact he

/-- The whole cycle of an `Fx0A` that waits: no tick and no publishing of `drawFlag` at its end (R39, D14). -/
theorem step_blocked {s : State} {w : Word} {x : RegNum} (hrun : s.FAULT = false) (hw : s.fetch = .ok w)
    (hdec : decode w = .known (.ldVxK x)) (hkeys : ∀ k, k < 16 → s.keyDown k = false) :
    step s = .next s.beginCycle.block.consumeInput := by
  have hnone : s.beginCycle.firstKey = none := State.firstKey_eq_none.mpr hkeys
  have hexec : runWord w s.beginCycle = .next s.beginCycle.block :=
    (runWord_known hdec _).trans (execLdVxK_of_none x hnone)
  rw [step_runWord hrun hw hexec, State.endCycle_stopped (.inr rfl)]

/-- Settles O43: with no key down the cycle only reports `blocked`; otherwise the instruction is one register write. -/
theorem keyWaitBlocksOrTakesTheLowestKey : Obligations.KeyWaitBlocksOrTakesTheLowestKey := by
  refine ⟨fun s w x hrun hw hdec hkeys => ?_, fun s x k hk hdown hlow => ?_⟩
  · exact ⟨_, step_blocked hrun hw hdec hkeys, fun _ _ => rfl, by simp [frameBut], rfl⟩
  · exact writesRegister_of_exec (execLdVxK_of_some x (State.firstKey_of_lowest hk hdown hlow))

end Sys2Proof.Machine
end

section
/-! Family F, timers (R210 to R212): the three moves between a register and a timer, before the cycle's tick. -/

namespace Sys2Proof.Machine

/-- Settles O45: one register write, and one write of each timer. -/
theorem timerInstructionsMoveTheTimers : Obligations.TimerInstructionsMoveTheTimers :=
  fun _ _ => ⟨writesRegister_of_exec rfl,
    ⟨_, rfl, rfl, rfl, fun _ _ => rfl, by simp [frameBut, State.readByte, State.pixel]⟩,
    ⟨_, rfl, rfl, rfl, fun _ _ => rfl, by simp [frameBut, State.readByte, State.pixel]⟩⟩

end Sys2Proof.Machine
end

section
/-! Faults (R230, R231, R242): which instruction can raise which, what a faulting cycle leaves unchanged, and the cycle
of a halted core. -/

namespace Sys2Proof.Machine

/-- Settles O19: the halted cycle clears the outputs and uses up the host's input. -/
theorem haltedCycleIsEmpty : Obligations.HaltedCycleIsEmpty :=
  fun _ hF => ⟨_, step_halted hF, fun _ _ => rfl, by simp [frameBut, State.haltedCycle], rfl⟩

/-- The cause codes of R230; 0 is left to the running core. -/
theorem FaultKind.code_range (k : FaultKind) : 1 ≤ k.code.toNat ∧ k.code.toNat ≤ 6 := by
  cases k <;> decide

/-- Settles O20: of the ways a cycle from a running core ends, only the fault halts it. -/
theorem faultingCycleChangesOnlyTheFaultRegisters : Obligations.FaultingCycleChangesOnlyTheFaultRegisters := by
  intro s u hF hstep hhalt
  cases step_ends hstep with
  | halted hF' => cases hF.symm.trans hF'
  | @fault _ e _ => exact ⟨fun _ _ => rfl, by simp [frameBut], rfl, e.kind.code_range⟩
  | blocked => cases hF.symm.trans hhalt
  | unknown => cases hF.symm.trans hhalt
  | completed _ _ _ _ hc => cases hF.symm.trans (hc.faultRegs.1.symm.trans hhalt)

/-- Settles O21: an instruction that completes or blocks leaves `FAULT` clear, and `Raises` is the table of R230. -/
theorem faultIsRaisedOnlyByTheInstructionsOfRule230 :
    Obligations.FaultIsRaisedOnlyByTheInstructionsOfRule230 := by
  intro i s t hF h hhalt
  rcases exec_cases h with hc | ⟨_, -, -, rfl⟩ | ⟨e, he, rfl⟩
  · cases hF.symm.trans (hc.faultRegs.1.symm.trans hhalt)
  · cases hF.symm.trans hhalt
  · cases he with
    | dataAccess hi =>
      rcases hi with (hB | hM) | hV | hD
      · exact .inl ⟨rfl, .inl hB⟩
      · exact .inl ⟨rfl, .inr (.inl hM)⟩
      · exact .inl ⟨rfl, .inr (.inr hV)⟩
      · exact .inr (.inl ⟨.inl rfl, hD⟩)
    | pixelAccess x y n => exact .inr (.inl ⟨.inr rfl, x, y, n, rfl⟩)
    | keyIndex hi => exact .inr (.inr (.inl ⟨rfl, hi.imp (⟨_, ·⟩) (⟨_, ·⟩)⟩))
    | overflow nnn => exact .inr (.inr (.inr (.inl ⟨rfl, nnn, rfl⟩)))
    | underflow => exact .inr (.inr (.inr (.inr ⟨rfl, rfl⟩)))

end Sys2Proof.Machine
end

section
/-! Family F, transfers (R220 to R222): the bytes and registers moved, what is kept, and the first address outside
memory as the fault's record. -/

namespace Sys2Proof.Machine

/-! ## The digits as numbers -/

theorem bcdHundreds_toNat (v : Byte) : (bcdHundreds v).toNat = v.toNat / 100 :=
  Nat.mod_eq_of_lt ((Nat.div_le_self _ _).trans_lt v.isLt)

theorem bcdTens_toNat (v : Byte) : (bcdTens v).toNat = v.toNat / 10 % 10 :=
  Nat.mod_eq_of_lt ((Nat.mod_lt _ (by decide)).trans (by decide))

theorem bcdOnes_toNat (v : Byte) : (bcdOnes v).toNat = v.toNat % 10 :=
  Nat.mod_eq_of_lt ((Nat.mod_lt _ (by decide)).trans (by decide))

/-! ## The transfers -/

/-- A transfer that stores changes memory and `pc` only (D21: `I` is kept). -/
theorem frameBut_store (s : State) (m : Memory) :
    frameBut [.pc, .memory] s ({ s with memory := m } : State).advance := by
  simp [frameBut, State.pixel]

/-- Settles O47: the digits stored, as numbers. -/
theorem bcdStoresThreeDigits : Obligations.BcdStoresThreeDigits := by
  intro s x hw
  rcases execLdB_cases x s with ⟨hin, m, hm, he⟩ | ⟨hout, he⟩
  · obtain ⟨m', hm', -, h0, h1, h2, hkept⟩ := storeBcd_ok (s.reg x) hin hw
    cases hm'.symm.trans hm
    exact ⟨fun _ => ⟨_, he, (congrArg _ h0).trans (bcdHundreds_toNat _), (congrArg _ h1).trans (bcdTens_toNat _),
        (congrArg _ h2).trans (bcdOnes_toNat _), hkept, rfl, fun _ _ => rfl, frameBut_store s m⟩,
      fun hgt => absurd hin (Nat.not_le.mpr hgt)⟩
  · exact ⟨fun hle => absurd hle (Nat.not_le.mpr hout), fun _ => he⟩

/-- Settles O48: an address outside the range is that of none of its registers. -/
theorem registerDumpStoresV0ToVx : Obligations.RegisterDumpStoresV0ToVx := by
  refine fun s x hw => ⟨fun hin => ?_, fun hout => ?_⟩
  · obtain ⟨m, he, hstored, hkept⟩ := execLdMemVx_stores hw hin
    refine ⟨_, he, hstored, fun a ha => hkept a fun i hi => ?_, rfl, fun _ _ => rfl, frameBut_store s m⟩
    simp only [State.ea] at ha ⊢; omega
  · rcases execLdMemVx_cases x s with ⟨hin, -⟩ | ⟨-, he⟩
    · exact absurd hin (Nat.not_le.mpr hout)
    · exact he

/-- Settles O49: the load writes the register file and `pc` only. -/
theorem registerLoadReadsV0ToVx : Obligations.RegisterLoadReadsV0ToVx := by
  intro s x
  rcases execLdVxMem_cases x s with ⟨hin, V, he, hloaded, hkept⟩ | ⟨hout, he⟩
  · exact ⟨fun _ => ⟨_, he, hloaded, hkept, rfl, by simp [frameBut, State.readByte, State.pixel]⟩,
      fun hgt => absurd hin (Nat.not_le.mpr hgt)⟩
  · exact ⟨fun hle => absurd hle (Nat.not_le.mpr hout), fun _ => he⟩

end Sys2Proof.Machine
end
